-- ==== Sys2Proof/Word.lean ====
section
/-! DEFINITION. The word types of the core (spec/00_scope.md R9) and the names of its general registers
(spec/10_state.md R20). -/

namespace Sys2Proof

/-- A byte, `u8`, an unsigned 8-bit value (R9). -/
abbrev Byte := BitVec 8

/-- A 16-bit value, `u16`: an address, `pc` or `sp` (R9). Its arithmetic is mod 65536. -/
abbrev Addr := BitVec 16

/-- The seven general registers of R20 (seven, not eight: 90_conflicts.md C1; log entry 1). -/
inductive Reg where
  | A | B | C | D | E | H | L
  deriving DecidableEq, Repr

end Sys2Proof
end

