-- ==== Sys2Proof/Config.lean ====
section
/-! DEFINITION. The two implementation parameters the spec keeps open under a name, with the values it
gives them (spec/00_scope.md R8). The machine runs at `Params.spec`; `Machine/Variant.lean` holds the same
machine under any other value. -/

namespace Sys2Proof

/-- The two named parameters of R8. -/
structure Params where
  /-- `INR_SET`: the registers whose INR opcode is implemented (R67, D3). -/
  inrSet : List Reg
  /-- `CPI_NEG_SETS_CY`: whether CPI with a negative difference sets CY (R126, D4). -/
  cpiNegSetsCY : Bool
  deriving DecidableEq, Repr

/-- The values the spec takes (R8): all seven registers, and the literal flag formula.
UNVERIFIED, unsafe: the source does not settle either (log entries 3 and 4). -/
def Params.spec : Params where
  inrSet := [.A, .B, .C, .D, .E, .H, .L]
  cpiNegSetsCY := false

end Sys2Proof
end

