-- ==== Sys2Proof/Syntax.lean ====
section
/-! DEFINITION. The instructions: one constructor per row of spec/opcode_table.json, operands as the
format gives them (spec/30_encoding.md R60, R61). -/

namespace Sys2Proof

/-- The instructions of R64, and the default row of the table for the 233 undefined opcodes (R68). -/
inductive Instr where
  | mviA (d8 : Byte)
  | mviB (d8 : Byte)
  | mviC (d8 : Byte)
  | mviD (d8 : Byte)
  | mviE (d8 : Byte)
  | mviH (d8 : Byte)
  | mviL (d8 : Byte)
  | inrA
  | inrB
  | inrC
  | inrD
  | inrE
  | inrH
  | inrL
  | hlt
  | cpi (d8 : Byte)
  | jmp (a16 : Addr)
  | jz (a16 : Addr)
  | jnz (a16 : Addr)
  | jc (a16 : Addr)
  | jnc (a16 : Addr)
  | call (a16 : Addr)
  | ret
  /-- A byte with no handler (R68). `opcode` is that byte, kept so that the word can be written back. -/
  | undefined (opcode : Byte)
  deriving DecidableEq, Repr

/-- `MVI r, d8` for the register named (R100 to R106). -/
def Instr.mvi : Reg → Byte → Instr
  | .A => .mviA
  | .B => .mviB
  | .C => .mviC
  | .D => .mviD
  | .E => .mviE
  | .H => .mviH
  | .L => .mviL

/-- `INR r` for the register named (R110 to R116). -/
def Instr.inr : Reg → Instr
  | .A => .inrA
  | .B => .inrB
  | .C => .inrC
  | .D => .inrD
  | .E => .inrE
  | .H => .inrH
  | .L => .inrL

end Sys2Proof
end

