-- ==== Sys2Proof/Decode.lean ====
section
/-! DEFINITION. The decoder and the encoder (spec/30_encoding.md). The decoder maps the whole opcode byte
to an operation (R62) through the table of R64, and never extracts a bit field from it; every byte value
outside the table is an undefined opcode (R68). -/

namespace Sys2Proof

/-! ### Byte order (R48, R61) -/

/-- Bits 7:0 of a 16-bit value. -/
def lowByte (v : Addr) : Byte := BitVec.ofNat 8 v.toNat

/-- Bits 15:8 of a 16-bit value. -/
def highByte (v : Addr) : Byte := BitVec.ofNat 8 (v.toNat / 256)

/-- `lo + 256 * hi`: the low-order byte stands at the lower address (R48, R61). -/
def addrOfBytes (lo hi : Byte) : Addr := BitVec.ofNat 16 (lo.toNat + 256 * hi.toNat)

/-! ### The opcode map -/

/-- What an opcode byte selects: one of the implemented operations, or undefined (R3, R62). -/
inductive Operation where
  | mvi (r : Reg)
  | inr (r : Reg)
  | hlt
  | cpi
  | jmp
  | jz
  | jnz
  | jc
  | jnc
  | call
  | ret
  | undefined
  deriving DecidableEq, Repr

/-- The MVI rows of R64 (bytes other than 0x06: D2, log entry 2). -/
def mviOpcodes : List (Byte × Operation) :=
  [(0x3E, .mvi .A), (0x06, .mvi .B), (0x0E, .mvi .C), (0x16, .mvi .D), (0x1E, .mvi .E), (0x26, .mvi .H),
   (0x2E, .mvi .L)]

/-- The INR rows of R64 (bytes other than 0x04: D2, log entry 2). -/
def inrOpcodes : List (Byte × Operation) :=
  [(0x3C, .inr .A), (0x04, .inr .B), (0x0C, .inr .C), (0x14, .inr .D), (0x1C, .inr .E), (0x24, .inr .H),
   (0x2C, .inr .L)]

/-- The rows of R64 that are neither MVI nor INR (C3, CA, DA, D2, CD, C9: D2, log entry 2). -/
def controlOpcodes : List (Byte × Operation) :=
  [(0x76, .hlt), (0xFE, .cpi), (0xC3, .jmp), (0xCA, .jz), (0xC2, .jnz), (0xDA, .jc), (0xD2, .jnc),
   (0xCD, .call), (0xC9, .ret)]

/-- The 23 rows of R64, in its order. -/
def opcodeTable : List (Byte × Operation) := mviOpcodes ++ inrOpcodes ++ controlOpcodes

/-- The operation of an opcode byte under given parameters: the table of R64, an INR whose register is
outside `INR_SET` being undefined (R67), and every other byte undefined (R68). -/
def operationWith (p : Params) (opcode : Byte) : Operation :=
  match opcodeTable.lookup opcode with
  | some (.inr r) => if r ∈ p.inrSet then .inr r else .undefined
  | some o => o
  | none => .undefined

/-- The operation of an opcode byte at the spec's parameters. -/
def operation (opcode : Byte) : Operation := operationWith Params.spec opcode

/-! ### Formats and operand assembly (R60, R61) -/

/-- The three formats of R60, each with the instruction it builds from its operand. -/
inductive Format where
  | implied (i : Instr)
  | d8 (build : Byte → Instr)
  | a16 (build : Addr → Instr)

/-- The format of each operation (R60, R64). `opcode` is only kept by an undefined opcode. -/
def Operation.format (opcode : Byte) : Operation → Format
  | .mvi r => .d8 (Instr.mvi r)
  | .inr r => .implied (Instr.inr r)
  | .hlt => .implied .hlt
  | .cpi => .d8 .cpi
  | .jmp => .a16 .jmp
  | .jz => .a16 .jz
  | .jnz => .a16 .jnz
  | .jc => .a16 .jc
  | .jnc => .a16 .jnc
  | .call => .a16 .call
  | .ret => .implied .ret
  | .undefined => .implied (.undefined opcode)

/-- The instruction that an opcode byte and the two bytes after it stand for. Total: every byte value is
an instruction (R68). A byte the format does not name is not looked at (R61). -/
def decodeBytesWith (p : Params) (opcode b1 b2 : Byte) : Instr :=
  match (operationWith p opcode).format opcode with
  | .implied i => i
  | .d8 build => build b1
  | .a16 build => build (addrOfBytes b1 b2)

/-- `decodeBytesWith` at the spec's parameters. -/
def decodeBytes (opcode b1 b2 : Byte) : Instr := decodeBytesWith Params.spec opcode b1 b2

/-- Why a list of bytes is not an instruction. Only a list that ends too soon is refused; no byte value
is (R68). Memory never ends, so a step meets none of these (log entry 18). -/
inductive DecodeError where
  /-- No opcode byte. -/
  | noOpcode
  /-- Format D8 without its operand byte. -/
  | missingD8
  /-- Format A16 without both operand bytes. -/
  | missingA16
  deriving DecidableEq, Repr

/-- The instruction a format makes of the bytes after the opcode, with the bytes it leaves. -/
def Format.assemble : Format → List Byte → Except DecodeError (Instr × List Byte)
  | .implied i, rest => .ok (i, rest)
  | .d8 build, b1 :: rest => .ok (build b1, rest)
  | .d8 _, [] => .error .missingD8
  | .a16 build, b1 :: b2 :: rest => .ok (build (addrOfBytes b1 b2), rest)
  | .a16 _, [_] => .error .missingA16
  | .a16 _, [] => .error .missingA16

/-- Read one instruction off the front of a list of bytes, and answer it with the rest of the list. -/
def decodeWith (p : Params) : List Byte → Except DecodeError (Instr × List Byte)
  | [] => .error .noOpcode
  | opcode :: rest => ((operationWith p opcode).format opcode).assemble rest

/-- `decodeWith` at the spec's parameters. -/
def decode (bytes : List Byte) : Except DecodeError (Instr × List Byte) := decodeWith Params.spec bytes

/-! ### The encoder -/

/-- A format D8 instruction's bytes (R60). -/
def encodeD8 (opcode d8 : Byte) : List Byte := [opcode, d8]

/-- A format A16 instruction's bytes, low byte of the address first (R60). -/
def encodeA16 (opcode : Byte) (a16 : Addr) : List Byte := [opcode, lowByte a16, highByte a16]

/-- The bytes of an instruction, lowest address first (R60, R64). -/
def encode : Instr → List Byte
  | .mviA d => encodeD8 0x3E d
  | .mviB d => encodeD8 0x06 d
  | .mviC d => encodeD8 0x0E d
  | .mviD d => encodeD8 0x16 d
  | .mviE d => encodeD8 0x1E d
  | .mviH d => encodeD8 0x26 d
  | .mviL d => encodeD8 0x2E d
  | .inrA => [0x3C]
  | .inrB => [0x04]
  | .inrC => [0x0C]
  | .inrD => [0x14]
  | .inrE => [0x1C]
  | .inrH => [0x24]
  | .inrL => [0x2C]
  | .hlt => [0x76]
  | .cpi d => encodeD8 0xFE d
  | .jmp a => encodeA16 0xC3 a
  | .jz a => encodeA16 0xCA a
  | .jnz a => encodeA16 0xC2 a
  | .jc a => encodeA16 0xDA a
  | .jnc a => encodeA16 0xD2 a
  | .call a => encodeA16 0xCD a
  | .ret => [0xC9]
  | .undefined op => [op]

/-- The length of an instruction, from its format (R60, R66). -/
def Instr.length : Instr → Nat
  | .mviA _ | .mviB _ | .mviC _ | .mviD _ | .mviE _ | .mviH _ | .mviL _ | .cpi _ => 2
  | .jmp _ | .jz _ | .jnz _ | .jc _ | .jnc _ | .call _ => 3
  | .inrA | .inrB | .inrC | .inrD | .inrE | .inrH | .inrL | .hlt | .ret | .undefined _ => 1

/-! ### The host's table words -/

/-- The three bytes of a table word, lowest address first; the bits from `nbits` on are 0. Three is the
longest instruction (R60). -/
def tableBytes (nbits w : Nat) : List Byte :=
  [BitVec.ofNat 8 (w % 2 ^ nbits), BitVec.ofNat 8 (w % 2 ^ nbits / 256), BitVec.ofNat 8 (w % 2 ^ nbits / 65536)]

/-- The instruction the decoder reads from a table word. -/
def decodeTableWord (nbits w : Nat) : Option Instr :=
  match decode (tableBytes nbits w) with
  | .ok (i, _) => some i
  | .error _ => none

end Sys2Proof
end

