-- ==== Sys2Proof/Machine/State.lean ====
section
/-! DEFINITION. The state of the core (spec/10_state.md, spec/20_memory.md R40), its reset value (R37),
and the reasons a step can stop. -/

namespace Sys2Proof.Machine

open Sys2Proof

/-- The reasons a step can fault: none. "A model of this core has no fault outcome for any state and any
memory contents" (spec/40_cycle_and_flags.md R85; R150). Nobody raises one, so the type is empty. -/
inductive Fault where
  deriving DecidableEq, Repr

/-- The reasons the model gives an instruction no meaning. -/
inductive Refusal where
  /-- Raised only by an arm of `exec` whose instruction has no meaning yet. Safe: the model stops. -/
  | notModelled (mnemonic : String)
  deriving DecidableEq, Repr

/-- The outcome of a step (spec/00_scope.md R12). -/
inductive RunState where
  | Continue
  | Halted
  deriving DecidableEq, Repr

/-- The general registers (R20). None is hard-wired, paired or banked (R20, R21). -/
structure Regs where
  A : Byte
  B : Byte
  C : Byte
  D : Byte
  E : Byte
  H : Byte
  L : Byte
  deriving DecidableEq, Repr

/-- The flags: four separate booleans, never packed into a byte (R24, R38). -/
structure Flags where
  /-- Zero (R25). -/
  Z : Bool
  /-- Sign (R26). -/
  S : Bool
  /-- Parity (R27). -/
  P : Bool
  /-- Carry (R28). -/
  CY : Bool
  deriving DecidableEq, Repr

/-- The 65536 bytes of memory (R40) as the list of its non-zero bytes, addresses rising
(`Memory.wf` in `Machine/Memory.lean` is that canonical form). -/
abbrev Memory := List Host.Cell

/-- The whole state of the core (10_state.md), and `runState`, which is the model's own. -/
structure State where
  /-- A, B, C, D, E, H, L (R20). -/
  regs : Regs
  /-- The program counter (R23). -/
  pc : Addr
  /-- The stack pointer (R29). -/
  sp : Addr
  /-- The instruction register: the opcode byte fetched last (R30). -/
  ir : Byte
  /-- Z, S, P, CY (R24). -/
  flags : Flags
  /-- The memory (R40). -/
  mem : Memory
  /-- What the last `step` returned (R12, R84). Not state of the core: every instruction writes it, none
  reads it, and it is no halted latch (R34; log entry 8). -/
  runState : RunState
  deriving DecidableEq, Repr

/-- Right after `new` or `reset`: the values of R37. `ir` is 0x00 by the spec's decision D7 (UNVERIFIED,
unsafe: log entry 7). `runState` is Continue (DESIGN CHOICE, unsafe: log entry 8). -/
def State.reset : State where
  regs := { A := 0x00, B := 0x00, C := 0x00, D := 0x00, E := 0x00, H := 0x00, L := 0x00 }
  pc := 0x0000
  sp := 0xFFFF
  ir := 0x00
  flags := { Z := false, S := false, P := false, CY := false }
  mem := []
  runState := .Continue

end Sys2Proof.Machine
end

