-- ==== Sys2Proof/Machine/Memory.lean ====
section
/-! DEFINITION. `program_memory` as data: reading and writing one byte of the canonical list
(spec/20_memory.md R40, R42, R43). -/

namespace Sys2Proof.Machine

open Sys2Proof

/-- What an address that the list does not hold reads as: memory is "zero-initialized on
reset/construction" (R42, R37; log entry 16). -/
def Memory.unlisted : Byte := 0x00

/-- The canonical form from address `lo` on: addresses rising from `lo`, below 65536 (R40), and no entry
equal to what an unlisted address reads as. -/
def Memory.wfFrom : Nat → List Host.Cell → Bool
  | _, [] => true
  | lo, (k, v) :: m =>
    decide (lo ≤ k) && decide (k < 65536) && decide (v ≠ Memory.unlisted) && Memory.wfFrom (k + 1) m

/-- The canonical form of a memory: equal memories are equal lists. -/
def Memory.wf (m : Memory) : Bool := Memory.wfFrom 0 m

/-- The byte at an address. Reading has no side effect (R43, R51). -/
def Memory.read : List Host.Cell → Nat → Byte
  | [], _ => Memory.unlisted
  | (k, v) :: m, a => if k = a then v else Memory.read m a

/-- Drop what the list holds at an address. -/
def Memory.erase (m : Memory) (a : Nat) : Memory := m.filter fun c => decide (c.1 ≠ a)

/-- Put a cell before the first entry with a higher address. -/
def Memory.insertCell : List Host.Cell → Nat → Byte → List Host.Cell
  | [], a, v => [(a, v)]
  | (k, w) :: m, a, v => if a < k then (a, v) :: (k, w) :: m else (k, w) :: Memory.insertCell m a v

/-- Write one byte. Writing what an unlisted address reads as removes the entry. -/
def Memory.write (m : Memory) (a : Nat) (v : Byte) : Memory :=
  if v = Memory.unlisted then Memory.erase m a else Memory.insertCell (Memory.erase m a) a v

end Sys2Proof.Machine
end

