-- ==== Sys2Proof/Machine/Ops.lean ====
section
/-! DEFINITION. The named operations over registers, memory and the stack (spec/00_scope.md R11,
spec/20_memory.md R43 to R47), the opcode fetch (spec/40_cycle_and_flags.md R81) and the two outcomes of a
step (R84). There is no operation for taking an exception: the core has none (spec/60_exceptions.md R150
to R154). -/

namespace Sys2Proof.Machine

open Sys2Proof

/-! ### General registers (`register_file`, R3, R20) -/

/-- Read a general register. -/
def Regs.read (g : Regs) : Reg → Byte
  | .A => g.A
  | .B => g.B
  | .C => g.C
  | .D => g.D
  | .E => g.E
  | .H => g.H
  | .L => g.L

/-- Write a general register. No other register changes: there are no pairs (R21). -/
def Regs.write (g : Regs) (r : Reg) (v : Byte) : Regs :=
  match r with
  | .A => { g with A := v }
  | .B => { g with B := v }
  | .C => { g with C := v }
  | .D => { g with D := v }
  | .E => { g with E := v }
  | .H => { g with H := v }
  | .L => { g with L := v }

/-- `x[r]` (R11). -/
def State.readReg (s : State) (r : Reg) : Byte := s.regs.read r

/-- `x[r] <- v` (R11). -/
def State.writeReg (s : State) (r : Reg) (v : Byte) : State := { s with regs := s.regs.write r v }

/-! ### Memory (`program_memory`) -/

/-- `MemRead(a, 1)` (R43). The address is 16 bits wide, so it is already mod 65536. -/
def State.readByte (s : State) (a : Addr) : Byte := Memory.read s.mem a.toNat

/-- `MemWrite(a, 1, v)` (R11). Every address may be written (R42). -/
def State.writeByte (s : State) (a : Addr) (v : Byte) : State :=
  { s with mem := Memory.write s.mem a.toNat v }

/-- `MemRead(a, 2)`, the source's `read16`: little-endian, the second address wrapping (R44; the wrap is
the spec's decision D6, UNVERIFIED, unsafe: log entry 6). -/
def State.read16 (s : State) (a : Addr) : Addr := addrOfBytes (s.readByte a) (s.readByte (a + 1))

/-- Write bytes one after the other from an address on, the address wrapping: the loop of `load` (R172;
the wrap is D13, UNVERIFIED, unsafe: log entry 12). -/
def State.writeBytes : Addr → List Byte → State → State
  | _, [], s => s
  | a, b :: bs, s => State.writeBytes (a + 1) bs (s.writeByte a b)

/-! ### Stack (`sp_stack_ctrl`) -/

/-- Push a 16-bit value: low byte at `sp - 2`, high byte at `sp - 1`, then `sp` down by 2 (R46; the byte
addresses wrap by D6). -/
def State.push16 (s : State) (v : Addr) : State :=
  { (s.writeByte (s.sp - 2) (lowByte v)).writeByte (s.sp - 1) (highByte v) with sp := s.sp - 2 }

/-- The value a pop reads: two bytes at `sp` and `sp + 1` (R47). -/
def State.stackTop (s : State) : Addr := s.read16 s.sp

/-- Pop: `sp` up by 2; the popped bytes stay in memory (R47). -/
def State.pop16 (s : State) : State := { s with sp := s.sp + 2 }

/-! ### Program counter (`pc_logic`) -/

/-- `pc <- t`. -/
def State.setPc (s : State) (t : Addr) : State := { s with pc := t }

/-- The opcode fetch: `ir <- MemRead(pc, 1)`, then `pc <- (pc + 1) mod 65536` (R81). -/
def State.fetchOpcode (s : State) : State := { s with ir := s.readByte s.pc, pc := s.pc + 1 }

/-! ### The outcome of a step -/

/-- `return Continue` (R12, R84). -/
def State.returnContinue (s : State) : Host.Outcome State Fault Refusal :=
  .next { s with runState := .Continue }

/-- `return Halted` (R12, R84). Not an error (R85), so it is a next state. -/
def State.returnHalted (s : State) : Host.Outcome State Fault Refusal :=
  .next { s with runState := .Halted }

end Sys2Proof.Machine
end

