-- ==== Sys2Proof/Machine/Operands.lean ====
section
/-! DEFINITION. The operand forms (spec/30_encoding.md R60, R61; spec/20_memory.md R45), after the opcode
fetch, so that `pc` points at the first operand byte. `Machine/Fetch.lean` reads them; the value reaches a meaning
inside the instruction (log entry 15). -/

namespace Sys2Proof.Machine

open Sys2Proof

/-- The immediate byte of MVI and CPI: `MemRead(pc, 1)` (R43). -/
def State.operandD8 (s : State) : Byte := s.readByte s.pc

/-- `fetch_address_operand`: `MemRead(pc, 2)`, `pc` not advanced (R45). -/
def State.operandA16 (s : State) : Addr := s.read16 s.pc

/-- Step over an immediate byte (R100, R125). -/
def State.skipD8 (s : State) : State := s.setPc (s.pc + 1)

/-- Step over an address operand that is not used (R45, R131). -/
def State.skipA16 (s : State) : State := s.setPc (s.pc + 2)

/-- Go to the address operand if the condition holds, else step over it (R131 to R134). -/
def State.jumpIf (s : State) (condition : Bool) (target : Addr) : State :=
  if condition then s.setPc target else s.skipA16

end Sys2Proof.Machine
end

