-- ==== Sys2Proof/Machine/CallReturn.lean ====
section
/-! DEFINITION. CALL and RET (spec/46_call_return.md). -/

namespace Sys2Proof.Machine

open Sys2Proof

/-- `CALL a16`: push `pc` as the opcode fetch left it, p + 1 and not p + 3 (C6), then go to the target
(R140). The target is the operand decoded before the push (R57; D9, UNVERIFIED, unsafe: log entry 9). -/
def execCall (a16 : Addr) (s : State) : Host.Outcome State Fault Refusal :=
  ((s.push16 s.pc).setPc a16).returnContinue

/-- `RET`: pop `pc` (R141; the order is D10, log entry 10, and no other order can be observed). -/
def execRet (s : State) : Host.Outcome State Fault Refusal := (s.pop16.setPc s.stackTop).returnContinue

end Sys2Proof.Machine
end

