-- ==== Sys2Proof/Machine/Flags.lean ====
section
/-! DEFINITION. `alu_8bit` and `flag_updater` (spec/40_cycle_and_flags.md R90 to R95,
spec/44_compare.md R126). -/

namespace Sys2Proof.Machine

open Sys2Proof

/-- 8-bit increment, wrapping, without a carry (R90). -/
def inc8 (x : Byte) : Byte := x + 1

/-- The unmasked difference of two unsigned bytes, in -255..255 (R91). -/
def subUnmasked (a b : Byte) : Int := (a.toNat : Int) - (b.toNat : Int)

/-- The number of 1 bits of a byte (R10). -/
def popcount (v : Byte) : Nat :=
  (v.getLsbD 0).toNat + (v.getLsbD 1).toNat + (v.getLsbD 2).toNat + (v.getLsbD 3).toNat
    + (v.getLsbD 4).toNat + (v.getLsbD 5).toNat + (v.getLsbD 6).toNat + (v.getLsbD 7).toNat

/-- `value & 0xFF`: the two's-complement low byte, for a negative value too (R9, R93; D5, UNVERIFIED,
unsafe: log entry 5). -/
def masked (value : Int) : Byte := BitVec.ofInt 8 value

/-- `UpdateFlags(value)`: Z, S and P from the masked byte, CY from the unmasked value; all four are
written (R92). -/
def updateFlags (value : Int) : Flags where
  Z := decide (masked value = 0)
  S := (masked value).getLsbD 7
  P := decide (popcount (masked value) % 2 = 0)
  CY := decide (value > 0xFF)

/-- The flags of CPI: `UpdateFlags(value)`, and under `CPI_NEG_SETS_CY` its last write replaced by
`CY <- (value < 0)` (R125, R126). -/
def compareFlagsWith (p : Params) (value : Int) : Flags :=
  if p.cpiNegSetsCY then { updateFlags value with CY := decide (value < 0) } else updateFlags value

end Sys2Proof.Machine
end

