-- ==== Sys2Proof/Machine/Compare.lean ====
section
/-! DEFINITION. CPI, compare immediate (spec/44_compare.md). -/

namespace Sys2Proof.Machine

open Sys2Proof

/-- CPI under given parameters: the flags from the unmasked difference `x[A] - d8`, A unmodified, `pc`
past the operand (R125, R126). -/
def compareImmediateWith (p : Params) (d8 : Byte) (s : State) : Host.Outcome State Fault Refusal :=
  State.returnContinue
    (State.skipD8 { s with flags := compareFlagsWith p (subUnmasked (s.readReg .A) d8) })

/-- `CPI d8` (R125), with CY by the literal formula (C2, D4; UNVERIFIED, unsafe: log entry 4). -/
def execCpi (d8 : Byte) (s : State) : Host.Outcome State Fault Refusal :=
  compareImmediateWith Params.spec d8 s

end Sys2Proof.Machine
end

