-- ==== Sys2Proof/Machine/Halt.lean ====
section
/-! DEFINITION. HLT (spec/43_halt.md). -/

namespace Sys2Proof.Machine

open Sys2Proof

/-- `HLT`: returns Halted and changes nothing beyond the fetch (R120). The core does not stop: a further
step runs the byte at `pc` (R121; D8, UNVERIFIED, unsafe: log entry 8). -/
def execHlt (s : State) : Host.Outcome State Fault Refusal := s.returnHalted

end Sys2Proof.Machine
end

