-- ==== Sys2Proof/Machine/Inr.lean ====
section
/-! DEFINITION. INR, increment register (spec/42_inr.md). -/

namespace Sys2Proof.Machine

open Sys2Proof

/-- The INR template: `x[r] <- inc8(x[r])`, the flags by `UpdateFlags` of the new, already masked byte (so
CY is written false: C3), Continue (R110 to R117). `pc` stands past the one byte already. -/
def incrementRegister (r : Reg) (s : State) : Host.Outcome State Fault Refusal :=
  State.returnContinue
    { s.writeReg r (inc8 (s.readReg r)) with flags := updateFlags ((inc8 (s.readReg r)).toNat : Int) }

/-- `INR A` (R110). -/
def execInrA (s : State) : Host.Outcome State Fault Refusal := incrementRegister .A s

/-- `INR B` (R111). -/
def execInrB (s : State) : Host.Outcome State Fault Refusal := incrementRegister .B s

/-- `INR C` (R112). -/
def execInrC (s : State) : Host.Outcome State Fault Refusal := incrementRegister .C s

/-- `INR D` (R113). -/
def execInrD (s : State) : Host.Outcome State Fault Refusal := incrementRegister .D s

/-- `INR E` (R114). -/
def execInrE (s : State) : Host.Outcome State Fault Refusal := incrementRegister .E s

/-- `INR H` (R115). -/
def execInrH (s : State) : Host.Outcome State Fault Refusal := incrementRegister .H s

/-- `INR L` (R116). -/
def execInrL (s : State) : Host.Outcome State Fault Refusal := incrementRegister .L s

end Sys2Proof.Machine
end

