-- ==== Sys2Proof/Machine/Jumps.lean ====
section
/-! DEFINITION. JMP and the conditional jumps (spec/45_jumps.md). No jump writes anything but `pc`
(R136). -/

namespace Sys2Proof.Machine

open Sys2Proof

/-- `JMP a16` (R130). -/
def execJmp (a16 : Addr) (s : State) : Host.Outcome State Fault Refusal := (s.setPc a16).returnContinue

/-- `JZ a16`: jump if Z (R131, R135). -/
def execJz (a16 : Addr) (s : State) : Host.Outcome State Fault Refusal :=
  (s.jumpIf s.flags.Z a16).returnContinue

/-- `JNZ a16`: jump if not Z (R132, R135). -/
def execJnz (a16 : Addr) (s : State) : Host.Outcome State Fault Refusal :=
  (s.jumpIf (!s.flags.Z) a16).returnContinue

/-- `JC a16`: jump if CY (R133, R135). -/
def execJc (a16 : Addr) (s : State) : Host.Outcome State Fault Refusal :=
  (s.jumpIf s.flags.CY a16).returnContinue

/-- `JNC a16`: jump if not CY (R134, R135). -/
def execJnc (a16 : Addr) (s : State) : Host.Outcome State Fault Refusal :=
  (s.jumpIf (!s.flags.CY) a16).returnContinue

end Sys2Proof.Machine
end

