-- ==== Sys2Proof/Machine/Mvi.lean ====
section
/-! DEFINITION. MVI, move immediate to register (spec/41_mvi.md). -/

namespace Sys2Proof.Machine

open Sys2Proof

/-- The MVI template: `x[r] <- d8`, `pc` past the operand, no flag, Continue (R100 to R107). -/
def moveImmediate (r : Reg) (d8 : Byte) (s : State) : Host.Outcome State Fault Refusal :=
  (s.writeReg r d8).skipD8.returnContinue

/-- `MVI A, d8` (R100). -/
def execMviA (d8 : Byte) (s : State) : Host.Outcome State Fault Refusal := moveImmediate .A d8 s

/-- `MVI B, d8` (R101). -/
def execMviB (d8 : Byte) (s : State) : Host.Outcome State Fault Refusal := moveImmediate .B d8 s

/-- `MVI C, d8` (R102). -/
def execMviC (d8 : Byte) (s : State) : Host.Outcome State Fault Refusal := moveImmediate .C d8 s

/-- `MVI D, d8` (R103). -/
def execMviD (d8 : Byte) (s : State) : Host.Outcome State Fault Refusal := moveImmediate .D d8 s

/-- `MVI E, d8` (R104). -/
def execMviE (d8 : Byte) (s : State) : Host.Outcome State Fault Refusal := moveImmediate .E d8 s

/-- `MVI H, d8` (R105). -/
def execMviH (d8 : Byte) (s : State) : Host.Outcome State Fault Refusal := moveImmediate .H d8 s

/-- `MVI L, d8` (R106). -/
def execMviL (d8 : Byte) (s : State) : Host.Outcome State Fault Refusal := moveImmediate .L d8 s

end Sys2Proof.Machine
end

