-- ==== Sys2Proof/Machine/Undefined.lean ====
section
/-! DEFINITION. The undefined opcodes (spec/40_cycle_and_flags.md R82, spec/30_encoding.md R68). -/

namespace Sys2Proof.Machine

open Sys2Proof

/-- An undefined opcode does nothing after the fetch and returns Continue, whichever byte it is (R82). It
neither faults nor is refused (U1). -/
def execUndefined (_opcode : Byte) (s : State) : Host.Outcome State Fault Refusal := s.returnContinue

end Sys2Proof.Machine
end

