-- ==== Sys2Proof/Machine/Dispatch.lean ====
section
/-! DEFINITION. The "execute" part of the step (spec/40_cycle_and_flags.md R83): one arm per instruction. It
runs after the opcode fetch of R81, so `s.pc` is the address of the byte after the opcode. -/

namespace Sys2Proof.Machine

open Sys2Proof

def exec (i : Instr) (s : State) : Host.Outcome State Fault Refusal :=
  match i with
  | .mviA d8 => Sys2Proof.Machine.execMviA d8 s
  | .mviB d8 => Sys2Proof.Machine.execMviB d8 s
  | .mviC d8 => Sys2Proof.Machine.execMviC d8 s
  | .mviD d8 => Sys2Proof.Machine.execMviD d8 s
  | .mviE d8 => Sys2Proof.Machine.execMviE d8 s
  | .mviH d8 => Sys2Proof.Machine.execMviH d8 s
  | .mviL d8 => Sys2Proof.Machine.execMviL d8 s
  | .inrA => Sys2Proof.Machine.execInrA s
  | .inrB => Sys2Proof.Machine.execInrB s
  | .inrC => Sys2Proof.Machine.execInrC s
  | .inrD => Sys2Proof.Machine.execInrD s
  | .inrE => Sys2Proof.Machine.execInrE s
  | .inrH => Sys2Proof.Machine.execInrH s
  | .inrL => Sys2Proof.Machine.execInrL s
  | .hlt => Sys2Proof.Machine.execHlt s
  | .cpi d8 => Sys2Proof.Machine.execCpi d8 s
  | .jmp a16 => Sys2Proof.Machine.execJmp a16 s
  | .jz a16 => Sys2Proof.Machine.execJz a16 s
  | .jnz a16 => Sys2Proof.Machine.execJnz a16 s
  | .jc a16 => Sys2Proof.Machine.execJc a16 s
  | .jnc a16 => Sys2Proof.Machine.execJnc a16 s
  | .call a16 => Sys2Proof.Machine.execCall a16 s
  | .ret => Sys2Proof.Machine.execRet s
  | .undefined opcode => Sys2Proof.Machine.execUndefined opcode s

end Sys2Proof.Machine
end

