-- ==== Sys2Proof/Machine/Fetch.lean ====
section
/-! DEFINITION. Fetching and decoding the instruction at `pc` (spec/40_cycle_and_flags.md R81, R83), and
placing bytes there. -/

namespace Sys2Proof.Machine

open Sys2Proof

/-- The instruction at `pc` under given parameters. Decode dispatches on the byte fetched in this step (R83,
C5); the operand that the format names is read after the opcode fetch and before any write of the step (R50,
R57; log entry 15). -/
def State.fetchInstrWith (p : Params) (s : State) : Instr :=
  match (operationWith p s.fetchOpcode.ir).format s.fetchOpcode.ir with
  | .implied i => i
  | .d8 build => build s.fetchOpcode.operandD8
  | .a16 build => build s.fetchOpcode.operandA16

/-- The instruction at `pc`, at the spec's parameters. -/
def State.fetchInstr (s : State) : Instr := s.fetchInstrWith Params.spec

/-- Bytes placed from the current `pc` on, as `load` places a program (R172). -/
def State.placeBytes (s : State) (bytes : List Byte) : State := State.writeBytes s.pc bytes s

end Sys2Proof.Machine
end

