-- ==== Sys2Proof/Machine/Step.lean ====
section
/-! DEFINITION. One fetch-decode-execute cycle (spec/40_cycle_and_flags.md R80, R83). -/

namespace Sys2Proof.Machine

open Sys2Proof

/-- `step()`: fetch the opcode byte (R81), decode it, execute (R83). The next state's `runState` is what
`step` returns (R84). -/
def step (s : State) : Host.Outcome State Fault Refusal := exec s.fetchInstr s.fetchOpcode

/-- The state with a table word's bytes stored at `pc`, where the next step fetches: the `load` of R172
(log entry 17). -/
def State.withFetchWord (s : State) (nbits w : Nat) : State := s.placeBytes (tableBytes nbits w)

end Sys2Proof.Machine
end

