-- ==== Sys2Proof/Machine/Commands.lean ====
section
/-! DEFINITION. The host's port: the seven commands of spec/70_reset_and_hazards.md (R170 to R178), and the
driver's loop over `step` (R122, R174). Commands are atomic and come one after the other; an overlapping
command cannot be written (D11; log entry 11). -/

namespace Sys2Proof.Machine

open Sys2Proof

/-- The commands of R178. -/
inductive Command where
  | new
  | reset
  | load (bytes : List Byte)
  | step
  | snapshot
  | peekMemory (addr : Addr)
  | pokeMemory (addr : Addr) (value : Byte)
  deriving DecidableEq, Repr

/-- The read-only copy that `snapshot` returns: exactly these fields, no memory and no halted field (R175;
D17, UNVERIFIED, safe: log entry 13). -/
structure StateView where
  A : Byte
  B : Byte
  C : Byte
  D : Byte
  E : Byte
  H : Byte
  L : Byte
  pc : Addr
  sp : Addr
  ir : Byte
  Z : Bool
  S : Bool
  P : Bool
  CY : Bool
  deriving DecidableEq, Repr

/-- What the host gets back (R178). `done` is "nothing", and for `new` the core, which is the state. -/
inductive Reply where
  | done
  | runState (r : RunState)
  | view (v : StateView)
  | byte (b : Byte)
  deriving DecidableEq, Repr

/-- The StateView of a state (R175). -/
def State.view (s : State) : StateView where
  A := s.regs.A
  B := s.regs.B
  C := s.regs.C
  D := s.regs.D
  E := s.regs.E
  H := s.regs.H
  L := s.regs.L
  pc := s.pc
  sp := s.sp
  ir := s.ir
  Z := s.flags.Z
  S := s.flags.S
  P := s.flags.P
  CY := s.flags.CY

/-- One command: the state after it and what the host gets back (R170 to R177). `new` makes a core in the
reset state, and the model has one core (R159; log entry 19). -/
def Command.run (c : Command) (s : State) : Host.Outcome (State × Reply) Fault Refusal :=
  match c with
  | .new => .next (State.reset, .done)
  | .reset => .next (State.reset, .done)
  | .load bytes => .next (s.placeBytes bytes, .done)
  | .step =>
    match Sys2Proof.Machine.step s with
    | .next t => .next (t, .runState t.runState)
    | .fault r => .fault r
    | .refused r => .refused r
  | .snapshot => .next (s, .view s.view)
  | .peekMemory addr => .next (s, .byte (s.readByte addr))
  | .pokeMemory addr value => .next (s.writeByte addr value, .done)

/-- The driver: at most `bound` calls of `step`, stopping at the first that returns Halted (R122, R174). -/
def runUntilHalted : Nat → State → Host.Outcome State Fault Refusal
  | 0, s => .next s
  | bound + 1, s =>
    match step s with
    | .next t => if t.runState = .Halted then .next t else runUntilHalted bound t
    | .fault r => .fault r
    | .refused r => .refused r

end Sys2Proof.Machine
end

