-- ==== Sys2Proof/Machine/Variant.lean ====
section
/-! DEFINITION. The machine under any value of the spec's two parameters (spec/00_scope.md R8). `step` is
this machine at `Params.spec`. -/

namespace Sys2Proof.Machine

open Sys2Proof

/-- Execute under given parameters: only CPI reads one (R126). -/
def execWith (p : Params) (i : Instr) (s : State) : Host.Outcome State Fault Refusal :=
  match i with
  | .cpi d8 => compareImmediateWith p d8 s
  | .mviA _ | .mviB _ | .mviC _ | .mviD _ | .mviE _ | .mviH _ | .mviL _ => exec i s
  | .inrA | .inrB | .inrC | .inrD | .inrE | .inrH | .inrL => exec i s
  | .hlt | .jmp _ | .jz _ | .jnz _ | .jc _ | .jnc _ | .call _ | .ret | .undefined _ => exec i s

/-- One step under given parameters: `INR_SET` acts in the decoder (R67), `CPI_NEG_SETS_CY` in CPI (R126). -/
def stepWith (p : Params) (s : State) : Host.Outcome State Fault Refusal :=
  execWith p (s.fetchInstrWith p) s.fetchOpcode

end Sys2Proof.Machine
end

