-- ==== Sys2Proof/WellFormed.lean ====
section
/-! DEFINITION. Which terms of `Instr` stand for something the hardware can fetch (spec/30_encoding.md
R64, R67, R68). Operand widths are in the types; two checks are left. -/

namespace Sys2Proof

/-- The INR of a register is an instruction only if the register is in `INR_SET` (R67). An undefined
opcode carries a byte that no row of R64 claims (R68). -/
def Instr.wfWith (p : Params) : Instr → Bool
  | .inrA => decide (Reg.A ∈ p.inrSet)
  | .inrB => decide (Reg.B ∈ p.inrSet)
  | .inrC => decide (Reg.C ∈ p.inrSet)
  | .inrD => decide (Reg.D ∈ p.inrSet)
  | .inrE => decide (Reg.E ∈ p.inrSet)
  | .inrH => decide (Reg.H ∈ p.inrSet)
  | .inrL => decide (Reg.L ∈ p.inrSet)
  | .undefined op => decide (operationWith p op = .undefined)
  | .mviA _ | .mviB _ | .mviC _ | .mviD _ | .mviE _ | .mviH _ | .mviL _ => true
  | .hlt | .cpi _ | .jmp _ | .jz _ | .jnz _ | .jc _ | .jnc _ | .call _ | .ret => true

/-- Well-formed at the spec's parameters. -/
def Instr.wf (i : Instr) : Bool := i.wfWith Params.spec

end Sys2Proof
end

