-- ==== Sys2Proof/Safety.lean ====
section
/-! DEFINITION. The terms in which statements speak of a run: what two states share, the invariant of the
core, and the steps that reach a state. -/

namespace Sys2Proof.Machine

open Sys2Proof

/-- Every byte of memory reads the same in both states. -/
def SameMemory (s t : State) : Prop := ∀ a : Addr, t.readByte a = s.readByte a

/-- Every general register but `r` reads the same in both states. -/
def SameRegsBut (r : Reg) (s t : State) : Prop := ∀ q : Reg, q ≠ r → t.readReg q = s.readReg q

/-- The invariant of the core (spec/10_state.md R35, R36): memory in its canonical form, whose addresses
are below 65536, and `sp` odd. Byte and flag ranges are in the types. -/
abbrev State.Inv (s : State) : Prop := Memory.wf s.mem = true ∧ s.sp.toNat % 2 = 1

/-- CY is false, which the spec derives for every state a run at its parameters reaches
(spec/40_cycle_and_flags.md R95). -/
abbrev State.CarryClear (s : State) : Prop := s.flags.CY = false

/-- The two states differ at most in CY. -/
def SameButCarry (s t : State) : Prop :=
  { t with flags := { t.flags with CY := false } } = { s with flags := { s.flags with CY := false } }

/-- The operation that the opcode byte at `pc` selects. -/
def State.nextOperation (s : State) : Operation := operation (s.readByte s.pc)

/-- The next step transfers control: a jump taken, a CALL or a RET (spec/30_encoding.md R66,
spec/45_jumps.md R135). -/
def State.transfersControl (s : State) : Bool :=
  match s.nextOperation with
  | .jmp | .call | .ret => true
  | .jz => s.flags.Z
  | .jnz => !s.flags.Z
  | .jc => s.flags.CY
  | .jnc => !s.flags.CY
  | .mvi _ | .inr _ | .hlt | .cpi | .undefined => false

/-- The opcode bytes of INR, written out a second time from R64 for statements. -/
def inrOpcode : Reg → Byte
  | .A => 0x3C
  | .B => 0x04
  | .C => 0x0C
  | .D => 0x14
  | .E => 0x1C
  | .H => 0x24
  | .L => 0x2C

/-- The opcode bytes of MVI, written out a second time from R64 for statements. -/
def mviOpcode : Reg → Byte
  | .A => 0x3E
  | .B => 0x06
  | .C => 0x0E
  | .D => 0x16
  | .E => 0x1E
  | .H => 0x26
  | .L => 0x2E

/-- A CALL executed `n` times, each from the state the one before it left (spec/46_call_return.md R143). -/
def repeatCall : Nat → Addr → State → Host.Outcome State Fault Refusal
  | 0, _, s => .next s
  | n + 1, a, s =>
    match exec (.call a) s with
    | .next t => repeatCall n a t
    | .fault r => .fault r
    | .refused r => .refused r

/-- A step that completes: it neither faults nor is refused (R80, R85). -/
def Completes (s : State) : Prop := ∃ t, step s = .next t

end Sys2Proof.Machine
end

