-- ==== Sys2Proof/Certificates/Slice0/Obligations.lean ====
section
/-! DEFINITION. The statements for the provers. Each cites the rule of spec/ it formalises. A statement about
`exec` speaks of the state after the opcode fetch, whose `pc` is p + 1 for an opcode at p
(spec/40_cycle_and_flags.md R81, R83); a statement about `step` speaks of the state before it. -/

open Sys2Proof Sys2Proof.Machine

/-! ### The instructions: completion, result and frame -/

/-- MVI r, d8 (R100 to R107), all seven registers: it completes, the register holds d8, `pc` moves past the
operand, and nothing else changes. -/
def Obligations.MviWritesOnlyItsRegister : Prop :=
  ∀ (r : Reg) (d8 : Byte) (s : State), ∃ t, exec (Instr.mvi r d8) s = .next t ∧
    t.readReg r = d8 ∧ SameRegsBut r s t ∧ t.pc.toNat = (s.pc.toNat + 1) % 65536 ∧
    t.sp = s.sp ∧ t.ir = s.ir ∧ t.flags = s.flags ∧ SameMemory s t ∧ t.runState = .Continue

/-- INR r (R110 to R117), all seven registers: it completes, the register goes up by one mod 256, Z, S and P
come from the new byte, CY is written false (R117, C3), and nothing else changes. That INR exists for all
seven is the spec's value of `INR_SET`, decision D3 (log entry 3). -/
def Obligations.InrIncrementsAndSetsFlags : Prop :=
  ∀ (r : Reg) (s : State), ∃ t, exec (Instr.inr r) s = .next t ∧
    (t.readReg r).toNat = ((s.readReg r).toNat + 1) % 256 ∧ SameRegsBut r s t ∧
    (t.flags.Z = true ↔ t.readReg r = 0) ∧ (t.flags.S = true ↔ 128 ≤ (t.readReg r).toNat) ∧
    (t.flags.P = true ↔ popcount (t.readReg r) % 2 = 0) ∧ t.flags.CY = false ∧
    t.pc = s.pc ∧ t.sp = s.sp ∧ t.ir = s.ir ∧ SameMemory s t ∧ t.runState = .Continue

/-- HLT (R120): executed, it returns Halted and changes nothing; as a step on the byte 0x76 it changes `ir`
and `pc` only. That 0x76 is HLT is the spec's reading of the sample program (R65, G3; log entry 2). -/
def Obligations.HltReturnsHaltedAndChangesNothing : Prop :=
  (∀ s : State, exec .hlt s = .next { s with runState := .Halted }) ∧
  ∀ s : State, s.readByte s.pc = 0x76 →
    step s = .next { s with ir := 0x76, pc := s.pc + 1, runState := .Halted }

/-- CPI d8 (R125 to R127): it completes, Z is equality with A, S and P come from (A - d8) mod 256 (for a
negative difference by the spec's decision D5, log entry 5), CY is false (D4, C2, log entry 4), `pc` moves
past the operand, and no register changes. -/
def Obligations.CpiSetsFlagsFromTheDifference : Prop :=
  ∀ (d8 : Byte) (s : State), ∃ t, exec (.cpi d8) s = .next t ∧
    (t.flags.Z = true ↔ s.readReg .A = d8) ∧
    (t.flags.S = true ↔ 128 ≤ ((s.readReg .A).toNat + 256 - d8.toNat) % 256) ∧
    (t.flags.P = true ↔ popcount (s.readReg .A - d8) % 2 = 0) ∧ t.flags.CY = false ∧
    t.regs = s.regs ∧ t.pc.toNat = (s.pc.toNat + 1) % 65536 ∧ t.sp = s.sp ∧ t.ir = s.ir ∧
    SameMemory s t ∧ t.runState = .Continue

/-- JMP a16 (R130, R136): it completes with `pc` at the target, any target, and changes nothing else. -/
def Obligations.JmpGoesToItsTarget : Prop :=
  ∀ (a16 : Addr) (s : State), exec (.jmp a16) s = .next { s with pc := a16, runState := .Continue }

/-- JZ, JNZ, JC, JNC (R135): each tests exactly its one flag as it stands at the start of the step, goes to
the target if the condition holds and past the operand if not, and changes nothing else. -/
def Obligations.ConditionalJumpsTestZAndCarryOnly : Prop :=
  ∀ (a16 : Addr) (s : State),
    exec (.jz a16) s =
      .next { s with pc := if s.flags.Z = true then a16 else s.pc + 2, runState := .Continue } ∧
    exec (.jnz a16) s =
      .next { s with pc := if s.flags.Z = false then a16 else s.pc + 2, runState := .Continue } ∧
    exec (.jc a16) s =
      .next { s with pc := if s.flags.CY = true then a16 else s.pc + 2, runState := .Continue } ∧
    exec (.jnc a16) s =
      .next { s with pc := if s.flags.CY = false then a16 else s.pc + 2, runState := .Continue }

/-- CALL a16 (R140, R46): it completes with `pc` at the target; the bytes at `sp - 2` and `sp - 1` hold the low
and the high byte of the `pc` it was executed with (p + 1), `sp` is down by 2, and no other byte, register
or flag changes. The stack addresses wrap by the spec's decision D6 (log entry 6); the push may cover the
operand, which was read first by D9 (log entry 9). -/
def Obligations.CallPushesTheAddressOfItsOperand : Prop :=
  ∀ (a16 : Addr) (s : State), ∃ t, exec (.call a16) s = .next t ∧
    t.pc = a16 ∧ t.sp.toNat = (s.sp.toNat + 65534) % 65536 ∧
    (t.readByte (s.sp - 2)).toNat = s.pc.toNat % 256 ∧ (t.readByte (s.sp - 1)).toNat = s.pc.toNat / 256 ∧
    (∀ a : Addr, a ≠ s.sp - 2 → a ≠ s.sp - 1 → t.readByte a = s.readByte a) ∧
    t.regs = s.regs ∧ t.flags = s.flags ∧ t.ir = s.ir ∧ t.runState = .Continue

/-- RET (R141, R47): it completes with `pc` the two bytes at `sp` and `sp + 1`, low byte first (the second
address wraps by D6, log entry 6), `sp` up by 2, and nothing else changes, the popped bytes included. -/
def Obligations.RetPopsTheProgramCounter : Prop :=
  ∀ s : State, ∃ t, exec .ret s = .next t ∧
    t.pc.toNat = (s.readByte s.sp).toNat + 256 * (s.readByte (s.sp + 1)).toNat ∧
    t.sp.toNat = (s.sp.toNat + 2) % 65536 ∧ t.regs = s.regs ∧ t.flags = s.flags ∧ t.ir = s.ir ∧
    SameMemory s t ∧ t.runState = .Continue

/-- An undefined opcode (R82): executed, it changes nothing and returns Continue; as a step its whole effect is
`ir <- opcode` and `pc <- (p + 1) mod 65536`. -/
def Obligations.UndefinedOpcodeIsAOneByteNoOp : Prop :=
  (∀ (opcode : Byte) (s : State), exec (.undefined opcode) s = .next { s with runState := .Continue }) ∧
  ∀ s : State, s.nextOperation = .undefined → ∃ t, step s = .next t ∧
    t = { s with ir := s.readByte s.pc, pc := t.pc, runState := .Continue } ∧
    t.pc.toNat = (s.pc.toNat + 1) % 65536

/-! ### The step -/

/-- Every step begins with the fetch (R81): `ir` takes the byte at `pc`, `pc` goes up by one mod 65536, and
the instruction then executes from there; the fetch changes nothing else. -/
def Obligations.EveryStepBeginsWithTheFetch : Prop :=
  ∀ s : State, ∃ f : State, step s = exec s.fetchInstr f ∧ f.ir = s.readByte s.pc ∧
    f.pc.toNat = (s.pc.toNat + 1) % 65536 ∧ f.regs = s.regs ∧ f.sp = s.sp ∧ f.flags = s.flags ∧ f.mem = s.mem

/-- A step runs the decoded instruction (R83): whatever the bytes at `pc` decode to is well-formed, and the step
is its execution after the fetch. Operand addresses wrap by the spec's decision D6 (log entry 6), and a CALL's
operand is read before its push by D9 (R57, log entry 9). -/
def Obligations.StepRunsTheDecodedInstruction : Prop :=
  ∀ (s : State) (i : Instr) (rest : List Byte),
    decode [s.readByte s.pc, s.readByte (s.pc + 1), s.readByte (s.pc + 2)] = .ok (i, rest) →
    i.wf = true ∧ step s = exec i { s with ir := s.readByte s.pc, pc := s.pc + 1 }

/-- The step has no error outcome (R85), for any state and any memory contents. -/
def Obligations.EveryStepCompletes : Prop := ∀ s : State, Completes s

/-- The outcome (R84): Continue unless the opcode is the halt opcode; then Halted, without any change beyond
the fetch. -/
def Obligations.OutcomeIsHaltedExactlyOnHlt : Prop :=
  ∀ s : State, ∃ t, step s = .next t ∧
    (t.runState = .Halted ↔ s.nextOperation = .hlt) ∧ (t.runState = .Continue ↔ s.nextOperation ≠ .hlt) ∧
    (s.nextOperation = .hlt → t.regs = s.regs ∧ t.sp = s.sp ∧ t.flags = s.flags ∧ t.mem = s.mem ∧
      t.pc.toNat = (s.pc.toNat + 1) % 65536)

/-- After every step `ir` holds the opcode byte that the step fetched, as it stood before the step (R30). -/
def Obligations.IrHoldsTheFetchedOpcode : Prop :=
  ∀ s : State, ∃ t, step s = .next t ∧ t.ir = s.readByte s.pc

/-- `pc` at the end of a step, for every operation: the table of R23. The second byte of an operand or of a
popped value wraps by the spec's decision D6 (log entry 6); that a CALL takes its target from memory as it
stood before the push, where the push covers the operand, is its decision D9 (R57, log entry 9). -/
def Obligations.NextPcTable : Prop :=
  ∀ s : State, ∃ t, step s = .next t ∧
    t.pc = match s.nextOperation with
      | .mvi _ | .cpi => s.pc + 2
      | .inr _ | .hlt | .undefined => s.pc + 1
      | .jmp | .call => addrOfBytes (s.readByte (s.pc + 1)) (s.readByte (s.pc + 2))
      | .jz => if s.flags.Z then addrOfBytes (s.readByte (s.pc + 1)) (s.readByte (s.pc + 2)) else s.pc + 3
      | .jnz => if s.flags.Z then s.pc + 3 else addrOfBytes (s.readByte (s.pc + 1)) (s.readByte (s.pc + 2))
      | .jc => if s.flags.CY then addrOfBytes (s.readByte (s.pc + 1)) (s.readByte (s.pc + 2)) else s.pc + 3
      | .jnc => if s.flags.CY then s.pc + 3 else addrOfBytes (s.readByte (s.pc + 1)) (s.readByte (s.pc + 2))
      | .ret => addrOfBytes (s.readByte s.sp) (s.readByte (s.sp + 1))

/-- Register access (R22): a register changes only by its own MVI, to the byte after the opcode, or its own
INR, up by one mod 256. -/
def Obligations.RegistersChangeOnlyByMviAndInr : Prop :=
  ∀ s : State, ∃ t, step s = .next t ∧ ∀ q : Reg,
    (s.nextOperation = .mvi q → t.readReg q = s.readByte (s.pc + 1)) ∧
    (s.nextOperation = .inr q → (t.readReg q).toNat = ((s.readReg q).toNat + 1) % 256) ∧
    (s.nextOperation ≠ .mvi q → s.nextOperation ≠ .inr q → t.readReg q = s.readReg q)

/-- The flags change only by INR and CPI, which write all four (R24): INR from the new register value, CPI from
the unmasked difference with A (CY of CPI by D4, masking of a negative by D5; log entries 4 and 5). -/
def Obligations.FlagsChangeOnlyByInrAndCpi : Prop :=
  ∀ s : State, ∃ t, step s = .next t ∧
    (∀ r, s.nextOperation = .inr r → t.flags = updateFlags ((t.readReg r).toNat : Int)) ∧
    (s.nextOperation = .cpi →
      t.flags = updateFlags (((s.readReg .A).toNat : Int) - ((s.readByte (s.pc + 1)).toNat : Int))) ∧
    ((∀ r, s.nextOperation ≠ .inr r) → s.nextOperation ≠ .cpi → t.flags = s.flags)

/-- `sp` (R29): 0xFFFF at reset, down by 2 by CALL, up by 2 by RET, both mod 65536, and changed by no other
instruction and by no host command that writes memory or reads. -/
def Obligations.SpChangesOnlyByCallAndRet : Prop :=
  State.reset.sp = 0xFFFF ∧
  (∀ s : State, ∃ t, step s = .next t ∧
    (s.nextOperation = .call → t.sp.toNat = (s.sp.toNat + 65534) % 65536) ∧
    (s.nextOperation = .ret → t.sp.toNat = (s.sp.toNat + 2) % 65536) ∧
    (s.nextOperation ≠ .call → s.nextOperation ≠ .ret → t.sp = s.sp)) ∧
  ∀ (s : State) (c : Command), c ≠ .new → c ≠ .reset → c ≠ .step →
    ∃ t r, c.run s = .next (t, r) ∧ t.sp = s.sp

/-- Memory changes only by a CALL, at the two bytes below `sp`, which get the address after the opcode (R50).
The stack addresses wrap by D6 (log entry 6). -/
def Obligations.MemoryChangesOnlyByCall : Prop :=
  ∀ s : State, ∃ t, step s = .next t ∧
    (s.nextOperation = .call → t.readByte (s.sp - 2) = lowByte (s.pc + 1) ∧
      t.readByte (s.sp - 1) = highByte (s.pc + 1) ∧
      ∀ a : Addr, a ≠ s.sp - 2 → a ≠ s.sp - 1 → t.readByte a = s.readByte a) ∧
    (s.nextOperation ≠ .call → SameMemory s t)

/-- No step reads the `ir` an earlier step left (R30, R83), and none reads the outcome an earlier step returned:
the core has no halted latch (R34). `runState` is the model's own field (log entry 8). -/
def Obligations.StepReadsNeitherIrNorLastOutcome : Prop :=
  ∀ (s : State) (b : Byte) (o : RunState), step { s with ir := b, runState := o } = step s

/-- What a step does outside memory depends on memory only through the bytes R50 lists: the opcode, the two
bytes after it, and the two bytes at `sp`. Two states that agree there and in everything but memory agree
in everything but memory after the step. The addresses p + 1, p + 2 and sp + 1 wrap by the spec's decision D6
(log entry 6). -/
def Obligations.StepDependsOnlyOnTheBytesItReads : Prop :=
  ∀ (s : State) (m : Memory),
    Memory.read m s.pc.toNat = s.readByte s.pc →
    Memory.read m (s.pc + 1).toNat = s.readByte (s.pc + 1) →
    Memory.read m (s.pc + 2).toNat = s.readByte (s.pc + 2) →
    Memory.read m s.sp.toNat = s.readByte s.sp →
    Memory.read m (s.sp + 1).toNat = s.readByte (s.sp + 1) →
    ∃ t u, step s = .next t ∧ step { s with mem := m } = .next u ∧ { u with mem := t.mem } = t

/-- The core keeps no halted latch: the step after HLT runs the byte after it as any other (R121, which is the
spec's decision D8; log entry 8). That the byte 0x76 is HLT, and so returns Halted, is the spec's reading of
the sample program (R65, G3; log entry 2). -/
def Obligations.StepAfterHltRunsTheNextByte : Prop :=
  ∀ s : State, s.readByte s.pc = 0x76 →
    ∃ t, step s = .next t ∧ t.runState = .Halted ∧ step t = step { s with pc := s.pc + 1 }

/-- An instruction that does not transfer control moves `pc` by its length, which the opcode byte alone
decides and which is 1 for every undefined opcode (R66). -/
def Obligations.LengthComesFromTheOpcodeByte : Prop :=
  (∀ op b1 b2 c1 c2 : Byte, (decodeBytes op b1 b2).length = (decodeBytes op c1 c2).length) ∧
  (∀ op b1 b2 : Byte, operation op = .undefined → (decodeBytes op b1 b2).length = 1) ∧
  ∀ s : State, s.transfersControl = false →
    ∃ t, step s = .next t ∧ t.pc.toNat = (s.pc.toNat + s.fetchInstr.length) % 65536

/-! ### ALU and flags -/

/-- The 8-bit increment wraps 0xFF to 0x00 (R90). -/
def Obligations.IncrementWraps : Prop :=
  (∀ x : Byte, (inc8 x).toNat = (x.toNat + 1) % 256) ∧ inc8 0xFF = 0x00

/-- UpdateFlags on byte values, 0 to 255, and CY above 255 (R94). The 1 bits are counted on the number, not
through the model's `popcount`. -/
def Obligations.UpdateFlagsOnBytesAndAbove : Prop :=
  (∀ v : Nat, v ≤ 255 →
    updateFlags (v : Int) =
      { Z := decide (v = 0), S := decide (v &&& 0x80 ≠ 0),
        P := decide (((List.range 8).countP fun i => v.testBit i) % 2 = 0), CY := false }) ∧
  ∀ v : Int, v > 255 → (updateFlags v).CY = true

/-- UpdateFlags on any integer (R92): Z, S and P from `value mod 256`, CY from the unmasked value. For a
negative value the mask is two's complement by the spec's decision D5 (R93, log entry 5). -/
def Obligations.UpdateFlagsReadsTheMaskedByte : Prop :=
  ∀ v : Int, ((masked v).toNat : Int) = v % 256 ∧
    ((updateFlags v).Z = true ↔ v % 256 = 0) ∧ ((updateFlags v).S = true ↔ 128 ≤ v % 256) ∧
    ((updateFlags v).P = true ↔ popcount (masked v) % 2 = 0) ∧ ((updateFlags v).CY = true ↔ v > 255)

/-! ### Invariants -/

/-- The reset state meets the invariant, and CY is clear in it (R37). Memory's canonical form is the model's own
choice of data (log entry 16). -/
def Obligations.ResetMeetsTheInvariant : Prop := State.reset.Inv ∧ State.reset.CarryClear

/-- Every step keeps the invariant (R35, R36): memory in its canonical form (log entry 16) and `sp` odd. -/
def Obligations.StepKeepsTheInvariant : Prop :=
  ∀ s : State, s.Inv → ∃ t, step s = .next t ∧ t.Inv

/-- Every host command completes and keeps the invariant, as R35 has its invariants hold after every command:
`sp` odd (R36), and memory in its canonical form, which is the model's own choice of data (log entry 16). That
a load past the end of memory completes, by wrapping, is the spec's decision D13 (log entry 12). -/
def Obligations.CommandsKeepTheInvariant : Prop :=
  ∀ (c : Command) (s : State), s.Inv → ∃ t r, c.run s = .next (t, r) ∧ t.Inv

/-- Once CY is clear it stays clear, JC is never taken and JNC always is (R95). It holds at the spec's value of
`CPI_NEG_SETS_CY`, which is its decision D4 (log entry 4). The second byte of JNC's operand, at p + 2, wraps by
its decision D6 (log entry 6). -/
def Obligations.CarryStaysClear : Prop :=
  ∀ s : State, s.CarryClear → ∃ t, step s = .next t ∧ t.CarryClear ∧
    (s.nextOperation = .jc → t.pc = s.pc + 3) ∧
    (s.nextOperation = .jnc → t.pc = addrOfBytes (s.readByte (s.pc + 1)) (s.readByte (s.pc + 2)))

/-- Memories in the canonical form that read alike are equal data (log entry 16: the form is the model's). -/
def Obligations.MemoriesThatReadAlikeAreEqual : Prop :=
  ∀ m n : Memory, Memory.wf m = true → Memory.wf n = true →
    (∀ a : Addr, Memory.read m a.toNat = Memory.read n a.toNat) → m = n

/-! ### Encoding -/

/-- A few words written out from R64 decode to what they stand for: every row of the source's sample program
(R65), one word of each other family, and an undefined opcode. The bytes of JMP, CALL and RET are the spec's
decision D2, and that 0x76 is HLT its reading G3 (log entry 2). -/
def Obligations.WordsDecodeAsWrittenOut : Prop :=
  decode [0x06, 0x01, 0x04, 0xFE, 0x64, 0xC2, 0x02, 0x00, 0x76] =
    .ok (.mviB 0x01, [0x04, 0xFE, 0x64, 0xC2, 0x02, 0x00, 0x76]) ∧
  decode [0x04] = .ok (.inrB, []) ∧ decode [0xFE, 0x64] = .ok (.cpi 0x64, []) ∧
  decode [0xC2, 0x02, 0x00] = .ok (.jnz 0x0002, []) ∧ decode [0x76] = .ok (.hlt, []) ∧
  decode [0xC3, 0x34, 0x12] = .ok (.jmp 0x1234, []) ∧ decode [0xCD, 0x10, 0x00] = .ok (.call 0x0010, []) ∧
  decode [0xC9] = .ok (.ret, []) ∧ decode [0x36, 0x3C] = .ok (.undefined 0x36, [0x3C])

/-- The opcode map is the table of R64, byte by byte, and every other byte is undefined (R68). 18 of the 23 bytes
are the spec's decision D2, and that 0x76 is HLT its reading G3 (log entry 2); that all seven INR opcodes are
INR is its value of `INR_SET`, decision D3 (R67, log entry 3). -/
def Obligations.OpcodeMapIsTheTable : Prop :=
  (∀ r : Reg, operation (mviOpcode r) = .mvi r ∧ operation (inrOpcode r) = .inr r) ∧
  operation 0x76 = .hlt ∧ operation 0xFE = .cpi ∧ operation 0xC3 = .jmp ∧ operation 0xCA = .jz ∧
  operation 0xC2 = .jnz ∧ operation 0xDA = .jc ∧ operation 0xD2 = .jnc ∧ operation 0xCD = .call ∧
  operation 0xC9 = .ret ∧
  ∀ b : Byte, (∀ r, b ≠ mviOpcode r ∧ b ≠ inrOpcode r) →
    b ∉ [(0x76 : Byte), 0xFE, 0xC3, 0xCA, 0xC2, 0xDA, 0xD2, 0xCD, 0xC9] → operation b = .undefined

/-- Decoding an encoded instruction gives it back, with the bytes after it untouched, for every well-formed
instruction and under every value of the parameters (R60, R61, R64, R67, R68). Which byte
stands for which instruction is, for 18 of them, the spec's decision D2 (log entry 2). -/
def Obligations.DecodeInvertsEncode : Prop :=
  ∀ (p : Params) (i : Instr) (rest : List Byte), i.wfWith p = true →
    decodeWith p (encode i ++ rest) = .ok (i, rest)

/-- Each byte string has one meaning: what decodes is the encoding of a well-formed instruction followed by the
bytes that are left (R60, R61, R64, R67, R68). Which byte stands for which instruction is, for 18
of them, the spec's decision D2 (log entry 2). -/
def Obligations.EncodeInvertsDecode : Prop :=
  ∀ (p : Params) (bytes : List Byte) (i : Instr) (rest : List Byte),
    decodeWith p bytes = .ok (i, rest) → i.wfWith p = true ∧ bytes = encode i ++ rest

/-- The decoder refuses no byte value (R68): three bytes always hold an instruction, and a shorter list is
refused only where the opcode's format needs more (the refusal's names are the model's, log entry 18). -/
def Obligations.EveryByteValueDecodes : Prop :=
  ∀ (p : Params) (op b1 b2 : Byte) (rest : List Byte),
    (∃ i tail, decodeWith p (op :: b1 :: b2 :: rest) = .ok (i, tail)) ∧
    (operationWith p op = .undefined → decodeWith p (op :: rest) = .ok (.undefined op, rest))

/-! ### The host's commands -/

/-- `reset` and `new` give every piece of state its value of R37, whatever the state before. The value of `ir`
is the spec's decision D7 (log entry 7); `runState` is the model's own (log entry 8). -/
def Obligations.ResetCommandGivesTheResetValues : Prop :=
  ∀ s : State, ∃ t, Command.run .reset s = .next (t, .done) ∧ Command.run .new s = .next (t, .done) ∧
    (∀ r, t.readReg r = 0x00) ∧ t.pc = 0x0000 ∧ t.sp = 0xFFFF ∧ t.ir = 0x00 ∧
    t.flags.Z = false ∧ t.flags.S = false ∧ t.flags.P = false ∧ t.flags.CY = false ∧
    (∀ a : Addr, t.readByte a = 0x00) ∧ t.runState = .Continue

/-- `load` writes the bytes from `pc` on, and changes no other byte (R172). Wrapping, and the later byte winning
where a long sequence wraps onto itself, are the spec's decision D13 (log entry 12). -/
def Obligations.LoadWritesFromThePc : Prop :=
  ∀ (s : State) (bytes : List Byte), ∃ t, Command.run (.load bytes) s = .next (t, .done) ∧
    (∀ (i : Nat) (h : i < bytes.length), bytes.length ≤ i + 65536 →
      t.readByte (s.pc + BitVec.ofNat 16 i) = bytes[i]) ∧
    (∀ a : Addr, (∀ i : Nat, i < bytes.length → a ≠ s.pc + BitVec.ofNat 16 i) → t.readByte a = s.readByte a)

/-- `load`, `peek_memory` and `poke_memory` do not change `pc`, `sp`, `ir`, a register or a flag (R58). -/
def Obligations.MemoryCommandsChangeOnlyMemory : Prop :=
  ∀ (s : State) (bytes : List Byte) (a : Addr) (v : Byte) (c : Command),
    c = .load bytes ∨ c = .peekMemory a ∨ c = .pokeMemory a v →
    ∃ t r, c.run s = .next (t, r) ∧ t.pc = s.pc ∧ t.sp = s.sp ∧ t.ir = s.ir ∧ t.regs = s.regs ∧
      t.flags = s.flags

/-- `peek_memory` returns any byte and changes nothing (R176). `poke_memory` sets one byte, any byte, and nothing
else; a poke at `pc` is what the next step fetches (R177). -/
def Obligations.PokeSetsOneByteAndPeekReadsIt : Prop :=
  ∀ (s : State) (a : Addr) (v : Byte), ∃ t, Command.run (.pokeMemory a v) s = .next (t, .done) ∧
    t = { s with mem := t.mem } ∧ (∀ b : Addr, b ≠ a → t.readByte b = s.readByte b) ∧
    t.readByte a = v ∧ (∀ b : Addr, Command.run (.peekMemory b) t = .next (t, .byte (t.readByte b))) ∧
    (a = s.pc → ∃ u, step t = .next u ∧ u.ir = v)

/-- `snapshot` copies the registers, `pc`, `sp`, `ir` and the flags, and changes nothing (R175; that these are all
the fields is the spec's decision D17, log entry 13). -/
def Obligations.SnapshotCopiesTheState : Prop :=
  ∀ s : State, ∃ v : StateView, Command.run .snapshot s = .next (s, .view v) ∧
    v.A = s.readReg .A ∧ v.B = s.readReg .B ∧ v.C = s.readReg .C ∧ v.D = s.readReg .D ∧ v.E = s.readReg .E ∧
    v.H = s.readReg .H ∧ v.L = s.readReg .L ∧ v.pc = s.pc ∧ v.sp = s.sp ∧ v.ir = s.ir ∧
    v.Z = s.flags.Z ∧ v.S = s.flags.S ∧ v.P = s.flags.P ∧ v.CY = s.flags.CY

/-- The `step` command returns what `step` returned (R173). -/
def Obligations.StepCommandReturnsTheOutcome : Prop :=
  ∀ s : State, ∃ t, step s = .next t ∧ Command.run .step s = .next (t, .runState t.runState) ∧
    (t.runState = .Halted ∨ t.runState = .Continue)

/-- An instruction that `load` placed is what the next step runs, from any state and any `pc`, across the end of
memory too (R172, R179). The wrap is the spec's decisions D13 and D6 (log entries 12 and 6); that a CALL's
operand is read before its push is D9 (log entry 9). -/
def Obligations.LoadedInstructionRuns : Prop :=
  ∀ (s : State) (i : Instr) (rest : List Byte), i.wf = true → (encode i ++ rest).length ≤ 65536 →
    ∃ t, Command.run (.load (encode i ++ rest)) s = .next (t, .done) ∧
      step t = exec i { t with ir := t.readByte s.pc, pc := s.pc + 1 }

/-- The end of a run (R122): a run that reached Halted within its bound ends there, whatever larger bound the
driver has; and no bound stops on an error. That a run ends at its first Halted is the spec's decision D8 (log
entry 8), and that the loop is the driver's is D20 (log entry 22). -/
def Obligations.RunEndsAtTheFirstHalted : Prop :=
  ∀ (n : Nat) (s : State), 0 < n → ∃ t, runUntilHalted n s = .next t ∧
    (t.runState = .Halted → ∀ k, n ≤ k → runUntilHalted k s = .next t) ∧
    (t.runState = .Continue → runUntilHalted (n + 1) s = runUntilHalted 1 t)

/-! ### The two parameters -/

/-- The machine is the parametric machine at the spec's values (R8), which are its decisions D3 and D4 (log
entries 3 and 4). -/
def Obligations.StepIsTheMachineAtSpecParams : Prop := ∀ s : State, stepWith Params.spec s = step s

/-- `CPI_NEG_SETS_CY` (R126): with `true`, CPI writes CY exactly when A is below the operand; every other effect
is as with `false`, where CY is false. The parameter and its value are the spec's decision D4 (log entry 4). -/
def Obligations.CpiParameterChangesOnlyCarry : Prop :=
  ∀ (p : Params) (d8 : Byte) (s : State), p.cpiNegSetsCY = true → ∃ t u,
    execWith p (.cpi d8) s = .next t ∧ exec (.cpi d8) s = .next u ∧ SameButCarry u t ∧
    (t.flags.CY = true ↔ (s.readReg .A).toNat < d8.toNat) ∧ u.flags.CY = false

/-- `INR_SET` (R67): the INR opcode of a register outside it is an undefined opcode, a one-byte no-op; of a
register inside it, INR. The set is the spec's decision D3 (log entry 3), six of the opcode bytes D2 (log entry
2). -/
def Obligations.InrOutsideTheSetIsANoOp : Prop :=
  ∀ (p : Params) (r : Reg) (s : State), s.readByte s.pc = inrOpcode r →
    (r ∉ p.inrSet →
      stepWith p s = .next { s with ir := inrOpcode r, pc := s.pc + 1, runState := .Continue }) ∧
    (r ∈ p.inrSet → stepWith p s = step s)

/-! ### Calls -/

/-- A CALL whose target holds RET comes back to p + 1, not p + 3, with `sp`, registers and flags as before the
CALL (R141, R142). The bytes 0xCD and 0xC9 are the spec's decision D2 (log entry 2), the wrap of the operand's
and the stack's addresses is D6 (log entry 6), and that the target is read before the push, where the push
covers the operand, is D9 (R57, log entry 9). -/
def Obligations.CallThenRetReturnsToTheOperand : Prop :=
  ∀ s : State, s.readByte s.pc = 0xCD → ∃ t, step s = .next t ∧
    t.pc = addrOfBytes (s.readByte (s.pc + 1)) (s.readByte (s.pc + 2)) ∧
    (t.readByte t.pc = 0xC9 → ∃ u, step t = .next u ∧ u.pc = s.pc + 1 ∧ u.sp = s.sp ∧ u.regs = s.regs ∧
      u.flags = s.flags)

/-- The stack has no bound (R143): n CALLs take `sp` down by 2n mod 65536, so after 32768 it is where it
started. -/
def Obligations.StackWrapsAfter32768Calls : Prop :=
  (∀ (n : Nat) (a16 : Addr) (s : State), ∃ t, repeatCall n a16 s = .next t ∧
    (t.sp.toNat + 2 * n) % 65536 = s.sp.toNat) ∧
  ∀ (a16 : Addr) (s : State), ∃ t, repeatCall 32768 a16 s = .next t ∧ t.sp = s.sp
end

