-- ==== Sys2Proof/Laws/Decode.lean ====
section
/-! SUPPORT. Byte order and the decoder's shape. -/

namespace Sys2Proof

/-! ### Byte order -/

/-- `lo + 256 * hi` (R61). -/
theorem addrOfBytes_toNat (lo hi : Byte) : (addrOfBytes lo hi).toNat = lo.toNat + 256 * hi.toNat := by
  rw [addrOfBytes, BitVec.toNat_ofNat, Nat.mod_eq_of_lt]
  omega

theorem lowByte_toNat (v : Addr) : (lowByte v).toNat = v.toNat % 256 := BitVec.toNat_ofNat ..

theorem highByte_toNat (v : Addr) : (highByte v).toNat = v.toNat / 256 := by
  rw [highByte, BitVec.toNat_ofNat, Nat.mod_eq_of_lt]
  omega

@[simp] theorem lowByte_addrOfBytes (lo hi : Byte) : lowByte (addrOfBytes lo hi) = lo := by
  apply BitVec.eq_of_toNat_eq
  rw [lowByte_toNat, addrOfBytes_toNat]
  omega

@[simp] theorem highByte_addrOfBytes (lo hi : Byte) : highByte (addrOfBytes lo hi) = hi := by
  apply BitVec.eq_of_toNat_eq
  rw [highByte_toNat, addrOfBytes_toNat]
  omega

@[simp] theorem addrOfBytes_lowByte_highByte (v : Addr) : addrOfBytes (lowByte v) (highByte v) = v := by
  apply BitVec.eq_of_toNat_eq
  rw [addrOfBytes_toNat, lowByte_toNat, highByte_toNat]
  omega

/-! ### The decoder -/

@[simp] theorem decodeWith_cons (p : Params) (op : Byte) (rest : List Byte) :
    decodeWith p (op :: rest) = ((operationWith p op).format op).assemble rest := rfl

@[simp] theorem Format.assemble_implied (i : Instr) (rest : List Byte) :
    (Format.implied i).assemble rest = .ok (i, rest) := by
  cases rest <;> rfl

@[simp] theorem Format.assemble_d8 (build : Byte → Instr) (b1 : Byte) (rest : List Byte) :
    (Format.d8 build).assemble (b1 :: rest) = .ok (build b1, rest) := rfl

@[simp] theorem Format.assemble_a16 (build : Addr → Instr) (b1 b2 : Byte) (rest : List Byte) :
    (Format.a16 build).assemble (b1 :: b2 :: rest) = .ok (build (addrOfBytes b1 b2), rest) := rfl

/-- On a list that holds enough bytes the list decoder and the fetch decoder agree. -/
theorem decodeWith_three (p : Params) (op b1 b2 : Byte) (rest : List Byte) :
    ∃ tail, decodeWith p (op :: b1 :: b2 :: rest) = .ok (decodeBytesWith p op b1 b2, tail) := by
  rw [decodeWith_cons]
  unfold decodeBytesWith
  cases (operationWith p op).format op with
  | implied i => exact ⟨_, rfl⟩
  | d8 build => exact ⟨_, rfl⟩
  | a16 build => exact ⟨_, rfl⟩

/-- Only the INR rows of the table depend on a parameter. -/
theorem operationWith_eq (p : Params) (op : Byte) :
    operationWith p op =
      match operation op with
      | .inr r => if r ∈ p.inrSet then .inr r else .undefined
      | o => o := by
  have hall : ∀ r : Reg, r ∈ Params.spec.inrSet := by intro r; cases r <;> decide
  unfold operation operationWith
  cases opcodeTable.lookup op with
  | none => rfl
  | some o => cases o <;> simp [hall]

end Sys2Proof
end

