-- ==== Sys2Proof/Laws/Memory.lean ====
section
/-! SUPPORT. The laws of `program_memory`: a read after a write, and the canonical form kept by every memory
operation. -/

namespace Sys2Proof.Machine

open Sys2Proof

@[simp] theorem Memory.read_nil (a : Nat) : Memory.read [] a = Memory.unlisted := rfl

theorem Memory.read_cons (k : Nat) (v : Byte) (m : List Host.Cell) (a : Nat) :
    Memory.read ((k, v) :: m) a = if k = a then v else Memory.read m a := rfl

/-! ### Reading after writing -/

theorem Memory.read_erase_self (m : Memory) (a : Nat) : Memory.read (Memory.erase m a) a = Memory.unlisted := by
  induction m with
  | nil => rfl
  | cons c m ih =>
    obtain ⟨k, v⟩ := c
    by_cases hk : k = a
    · simpa [Memory.erase, hk] using ih
    · simpa [Memory.erase, hk, Memory.read_cons] using ih

theorem Memory.read_erase_of_ne {a b : Nat} (h : b ≠ a) (m : Memory) :
    Memory.read (Memory.erase m a) b = Memory.read m b := by
  induction m with
  | nil => rfl
  | cons c m ih =>
    obtain ⟨k, v⟩ := c
    by_cases hk : k = a
    · subst hk
      simpa [Memory.erase, Memory.read_cons, Ne.symm h] using ih
    · have : Memory.erase ((k, v) :: m) a = (k, v) :: Memory.erase m a := by simp [Memory.erase, hk]
      rw [this, Memory.read_cons, Memory.read_cons, ih]

theorem Memory.read_insertCell_self (m : List Host.Cell) (a : Nat) (v : Byte) (h : ∀ c ∈ m, c.1 ≠ a) :
    Memory.read (Memory.insertCell m a v) a = v := by
  induction m with
  | nil => simp [Memory.insertCell, Memory.read_cons]
  | cons c m ih =>
    obtain ⟨k, w⟩ := c
    have hk : k ≠ a := h (k, w) List.mem_cons_self
    have ih := ih fun c hc => h c (List.mem_cons_of_mem _ hc)
    unfold Memory.insertCell
    split
    · simp [Memory.read_cons]
    · simp [Memory.read_cons, hk, ih]

theorem Memory.read_insertCell_of_ne {a b : Nat} (h : b ≠ a) (m : List Host.Cell) (v : Byte) :
    Memory.read (Memory.insertCell m a v) b = Memory.read m b := by
  induction m with
  | nil => simp [Memory.insertCell, Memory.read_cons, Ne.symm h]
  | cons c m ih =>
    obtain ⟨k, w⟩ := c
    unfold Memory.insertCell
    split
    · rw [Memory.read_cons, if_neg (Ne.symm h)]
    · rw [Memory.read_cons, Memory.read_cons, ih]

theorem Memory.ne_of_mem_erase {m : Memory} {a : Nat} {c : Host.Cell} (h : c ∈ Memory.erase m a) : c.1 ≠ a := by
  simpa using (List.mem_filter.mp h).2

/-- A byte read where it was written is the byte written (R54). -/
theorem Memory.read_write_self (m : Memory) (a : Nat) (v : Byte) :
    Memory.read (Memory.write m a v) a = v := by
  unfold Memory.write
  split
  · next h => rw [Memory.read_erase_self, h]
  · exact Memory.read_insertCell_self _ a v fun c hc => Memory.ne_of_mem_erase hc

/-- A write leaves every other byte alone (R54). -/
theorem Memory.read_write_of_ne {a b : Nat} (h : b ≠ a) (m : Memory) (v : Byte) :
    Memory.read (Memory.write m a v) b = Memory.read m b := by
  unfold Memory.write
  split
  · exact Memory.read_erase_of_ne h m
  · rw [Memory.read_insertCell_of_ne h, Memory.read_erase_of_ne h]

/-! ### The canonical form -/

theorem Memory.wfFrom_cons (lo k : Nat) (v : Byte) (m : List Host.Cell) :
    Memory.wfFrom lo ((k, v) :: m) = true ↔
      lo ≤ k ∧ k < 65536 ∧ v ≠ Memory.unlisted ∧ Memory.wfFrom (k + 1) m = true := by
  simp [Memory.wfFrom, and_assoc]

theorem Memory.wfFrom_mono {lo lo' : Nat} (h : lo' ≤ lo) {m : List Host.Cell} (hm : Memory.wfFrom lo m = true) :
    Memory.wfFrom lo' m = true := by
  cases m with
  | nil => rfl
  | cons c m =>
    obtain ⟨hlo, hk, hv, hm⟩ := (Memory.wfFrom_cons ..).mp hm
    exact (Memory.wfFrom_cons ..).mpr ⟨h.trans hlo, hk, hv, hm⟩

/-- Below its first address, a canonical list holds nothing. -/
theorem Memory.read_of_lt {lo a : Nat} {m : List Host.Cell} (hm : Memory.wfFrom lo m = true) (h : a < lo) :
    Memory.read m a = Memory.unlisted := by
  induction m generalizing lo with
  | nil => rfl
  | cons c m ih =>
    obtain ⟨hlo, -, -, hm⟩ := (Memory.wfFrom_cons ..).mp hm
    rw [Memory.read_cons, if_neg (by omega), ih hm (by omega)]

theorem Memory.wfFrom_erase {lo : Nat} {m : Memory} (hm : Memory.wfFrom lo m = true) (a : Nat) :
    Memory.wfFrom lo (Memory.erase m a) = true := by
  induction m generalizing lo with
  | nil => rfl
  | cons c m ih =>
    obtain ⟨k, v⟩ := c
    obtain ⟨hlo, hk, hv, hm⟩ := (Memory.wfFrom_cons ..).mp hm
    by_cases hka : k = a
    · simpa [Memory.erase, hka] using Memory.wfFrom_mono (by omega : lo ≤ k + 1) (ih hm)
    · have : Memory.erase ((k, v) :: m) a = (k, v) :: Memory.erase m a := by simp [Memory.erase, hka]
      rw [this]
      exact (Memory.wfFrom_cons ..).mpr ⟨hlo, hk, hv, ih hm⟩

theorem Memory.wfFrom_insertCell {lo a : Nat} {v : Byte} {m : List Host.Cell} (hm : Memory.wfFrom lo m = true)
    (hlo : lo ≤ a) (ha : a < 65536) (hv : v ≠ Memory.unlisted) (h : ∀ c ∈ m, c.1 ≠ a) :
    Memory.wfFrom lo (Memory.insertCell m a v) = true := by
  induction m generalizing lo with
  | nil => exact (Memory.wfFrom_cons ..).mpr ⟨hlo, ha, hv, rfl⟩
  | cons c m ih =>
    obtain ⟨k, w⟩ := c
    obtain ⟨hlk, hk, hw, hm⟩ := (Memory.wfFrom_cons ..).mp hm
    have hka : k ≠ a := h (k, w) List.mem_cons_self
    unfold Memory.insertCell
    split
    · next hlt =>
      exact (Memory.wfFrom_cons ..).mpr
        ⟨hlo, ha, hv, (Memory.wfFrom_cons ..).mpr ⟨by omega, hk, hw, hm⟩⟩
    · exact (Memory.wfFrom_cons ..).mpr
        ⟨hlk, hk, hw, ih hm (by omega) fun c hc => h c (List.mem_cons_of_mem _ hc)⟩

/-- Writing a byte keeps the canonical form. -/
theorem Memory.wf_write {m : Memory} (hm : Memory.wf m = true) {a : Nat} (ha : a < 65536) (v : Byte) :
    Memory.wf (Memory.write m a v) = true := by
  unfold Memory.write
  split
  · exact Memory.wfFrom_erase hm a
  · next hv =>
    exact Memory.wfFrom_insertCell (Memory.wfFrom_erase hm a) (Nat.zero_le a) ha hv
      fun c hc => Memory.ne_of_mem_erase hc

/-- Memory after reset has the canonical form. -/
theorem Memory.wf_reset : Memory.wf State.reset.mem = true := rfl

end Sys2Proof.Machine
end

