-- ==== Sys2Proof/Laws/State.lean ====
section
/-! SUPPORT. One lemma per field per update of the state, and what each named operation does to registers
and memory. -/

namespace Sys2Proof.Machine

open Sys2Proof

/-! ### Registers -/

@[simp] theorem Regs.read_write_self (g : Regs) (r : Reg) (v : Byte) : (g.write r v).read r = v := by
  cases r <;> rfl

theorem Regs.read_write_of_ne {q r : Reg} (h : q ≠ r) (g : Regs) (v : Byte) :
    (g.write r v).read q = g.read q := by
  cases r <;> cases q <;> first | rfl | exact absurd rfl h

@[simp] theorem State.readReg_writeReg_self (s : State) (r : Reg) (v : Byte) :
    (s.writeReg r v).readReg r = v := Regs.read_write_self ..

theorem State.readReg_writeReg_of_ne {q r : Reg} (h : q ≠ r) (s : State) (v : Byte) :
    (s.writeReg r v).readReg q = s.readReg q := Regs.read_write_of_ne h ..

@[simp] theorem State.writeReg_pc (s : State) (r : Reg) (v : Byte) : (s.writeReg r v).pc = s.pc := rfl
@[simp] theorem State.writeReg_sp (s : State) (r : Reg) (v : Byte) : (s.writeReg r v).sp = s.sp := rfl
@[simp] theorem State.writeReg_ir (s : State) (r : Reg) (v : Byte) : (s.writeReg r v).ir = s.ir := rfl
@[simp] theorem State.writeReg_flags (s : State) (r : Reg) (v : Byte) : (s.writeReg r v).flags = s.flags := rfl
@[simp] theorem State.writeReg_mem (s : State) (r : Reg) (v : Byte) : (s.writeReg r v).mem = s.mem := rfl

/-! ### One byte of memory -/

@[simp] theorem State.writeByte_regs (s : State) (a : Addr) (v : Byte) : (s.writeByte a v).regs = s.regs := rfl
@[simp] theorem State.writeByte_pc (s : State) (a : Addr) (v : Byte) : (s.writeByte a v).pc = s.pc := rfl
@[simp] theorem State.writeByte_sp (s : State) (a : Addr) (v : Byte) : (s.writeByte a v).sp = s.sp := rfl
@[simp] theorem State.writeByte_ir (s : State) (a : Addr) (v : Byte) : (s.writeByte a v).ir = s.ir := rfl
@[simp] theorem State.writeByte_flags (s : State) (a : Addr) (v : Byte) : (s.writeByte a v).flags = s.flags := rfl
@[simp] theorem State.writeByte_runState (s : State) (a : Addr) (v : Byte) :
    (s.writeByte a v).runState = s.runState := rfl
theorem State.writeByte_mem (s : State) (a : Addr) (v : Byte) :
    (s.writeByte a v).mem = Memory.write s.mem a.toNat v := rfl

@[simp] theorem State.readByte_writeByte_self (s : State) (a : Addr) (v : Byte) :
    (s.writeByte a v).readByte a = v := Memory.read_write_self ..

theorem State.readByte_writeByte_of_ne {a b : Addr} (h : b ≠ a) (s : State) (v : Byte) :
    (s.writeByte a v).readByte b = s.readByte b :=
  Memory.read_write_of_ne (fun e => h (BitVec.eq_of_toNat_eq e)) ..

/-- A read looks at memory only. -/
theorem State.readByte_congr {s t : State} (h : t.mem = s.mem) (a : Addr) : t.readByte a = s.readByte a := by
  simp only [State.readByte, h]

theorem State.read16_congr {s t : State} (h : t.mem = s.mem) (a : Addr) : t.read16 a = s.read16 a := by
  simp only [State.read16, State.readByte, h]

theorem State.wf_writeByte {s : State} (h : Memory.wf s.mem = true) (a : Addr) (v : Byte) :
    Memory.wf (s.writeByte a v).mem = true := Memory.wf_write h a.isLt v

/-! ### A run of bytes -/

@[simp] theorem State.writeBytes_nil (a : Addr) (s : State) : State.writeBytes a [] s = s := rfl
@[simp] theorem State.writeBytes_cons (a : Addr) (b : Byte) (bs : List Byte) (s : State) :
    State.writeBytes a (b :: bs) s = State.writeBytes (a + 1) bs (s.writeByte a b) := rfl

/-- Writing bytes changes memory only. -/
theorem State.writeBytes_eq (bs : List Byte) (a : Addr) (s : State) :
    State.writeBytes a bs s = { s with mem := (State.writeBytes a bs s).mem } := by
  induction bs generalizing a s with
  | nil => rfl
  | cons b bs ih => exact ih (a + 1) (s.writeByte a b)

theorem State.wf_writeBytes {s : State} (h : Memory.wf s.mem = true) (bs : List Byte) (a : Addr) :
    Memory.wf (State.writeBytes a bs s).mem = true := by
  induction bs generalizing a s with
  | nil => exact h
  | cons b bs ih => exact ih (State.wf_writeByte h a b) (a + 1)

/-! ### The stack -/

theorem Addr.sub_two_ne_sub_one (a : Addr) : a - 2 ≠ a - 1 := by bv_omega

@[simp] theorem State.push16_regs (s : State) (v : Addr) : (s.push16 v).regs = s.regs := rfl
@[simp] theorem State.push16_pc (s : State) (v : Addr) : (s.push16 v).pc = s.pc := rfl
@[simp] theorem State.push16_sp (s : State) (v : Addr) : (s.push16 v).sp = s.sp - 2 := rfl
@[simp] theorem State.push16_ir (s : State) (v : Addr) : (s.push16 v).ir = s.ir := rfl
@[simp] theorem State.push16_flags (s : State) (v : Addr) : (s.push16 v).flags = s.flags := rfl

theorem State.readByte_push16 (s : State) (v : Addr) (a : Addr) :
    (s.push16 v).readByte a =
      ((s.writeByte (s.sp - 2) (lowByte v)).writeByte (s.sp - 1) (highByte v)).readByte a := rfl

theorem State.readByte_push16_low (s : State) (v : Addr) :
    (s.push16 v).readByte (s.sp - 2) = lowByte v := by
  rw [State.readByte_push16, State.readByte_writeByte_of_ne (Addr.sub_two_ne_sub_one _),
    State.readByte_writeByte_self]

theorem State.readByte_push16_high (s : State) (v : Addr) :
    (s.push16 v).readByte (s.sp - 1) = highByte v := by
  rw [State.readByte_push16, State.readByte_writeByte_self]

theorem State.readByte_push16_of_ne {a : Addr} (s : State) (v : Addr) (h₂ : a ≠ s.sp - 2) (h₁ : a ≠ s.sp - 1) :
    (s.push16 v).readByte a = s.readByte a := by
  rw [State.readByte_push16, State.readByte_writeByte_of_ne h₁, State.readByte_writeByte_of_ne h₂]

theorem State.wf_push16 {s : State} (h : Memory.wf s.mem = true) (v : Addr) :
    Memory.wf (s.push16 v).mem = true := State.wf_writeByte (State.wf_writeByte h _ _) _ _

@[simp] theorem State.pop16_regs (s : State) : s.pop16.regs = s.regs := rfl
@[simp] theorem State.pop16_pc (s : State) : s.pop16.pc = s.pc := rfl
@[simp] theorem State.pop16_sp (s : State) : s.pop16.sp = s.sp + 2 := rfl
@[simp] theorem State.pop16_ir (s : State) : s.pop16.ir = s.ir := rfl
@[simp] theorem State.pop16_flags (s : State) : s.pop16.flags = s.flags := rfl
@[simp] theorem State.pop16_mem (s : State) : s.pop16.mem = s.mem := rfl

/-! ### The program counter -/

@[simp] theorem State.setPc_regs (s : State) (t : Addr) : (s.setPc t).regs = s.regs := rfl
@[simp] theorem State.setPc_pc (s : State) (t : Addr) : (s.setPc t).pc = t := rfl
@[simp] theorem State.setPc_sp (s : State) (t : Addr) : (s.setPc t).sp = s.sp := rfl
@[simp] theorem State.setPc_ir (s : State) (t : Addr) : (s.setPc t).ir = s.ir := rfl
@[simp] theorem State.setPc_flags (s : State) (t : Addr) : (s.setPc t).flags = s.flags := rfl
@[simp] theorem State.setPc_mem (s : State) (t : Addr) : (s.setPc t).mem = s.mem := rfl

@[simp] theorem State.fetchOpcode_regs (s : State) : s.fetchOpcode.regs = s.regs := rfl
@[simp] theorem State.fetchOpcode_pc (s : State) : s.fetchOpcode.pc = s.pc + 1 := rfl
@[simp] theorem State.fetchOpcode_sp (s : State) : s.fetchOpcode.sp = s.sp := rfl
@[simp] theorem State.fetchOpcode_ir (s : State) : s.fetchOpcode.ir = s.readByte s.pc := rfl
@[simp] theorem State.fetchOpcode_flags (s : State) : s.fetchOpcode.flags = s.flags := rfl
@[simp] theorem State.fetchOpcode_mem (s : State) : s.fetchOpcode.mem = s.mem := rfl

/-- A conditional jump changes `pc` only (R136). -/
theorem State.jumpIf_eq (s : State) (c : Bool) (t : Addr) :
    s.jumpIf c t = { s with pc := if c then t else s.pc + 2 } := by
  cases c <;> rfl

end Sys2Proof.Machine
end

