-- ==== Sys2Proof/Laws/Exec.lean ====
section
/-! SUPPORT. What each shared meaning answers, written out as one record, and what the step is made of. -/

namespace Sys2Proof.Machine

open Sys2Proof

/-! ### Flags -/

@[simp] theorem updateFlags_Z (v : Int) : (updateFlags v).Z = decide (masked v = 0) := rfl
@[simp] theorem updateFlags_S (v : Int) : (updateFlags v).S = (masked v).getLsbD 7 := rfl
@[simp] theorem updateFlags_P (v : Int) : (updateFlags v).P = decide (popcount (masked v) % 2 = 0) := rfl
@[simp] theorem updateFlags_CY (v : Int) : (updateFlags v).CY = decide (v > 0xFF) := rfl

/-- A byte is its own masked value. -/
@[simp] theorem masked_byte (x : Byte) : masked (x.toNat : Int) = x := by
  apply BitVec.eq_of_toNat_eq
  rw [masked, BitVec.toNat_ofInt]
  omega

/-- At the spec's parameters CPI's flags are those of `UpdateFlags` (R125). -/
@[simp] theorem compareFlagsWith_spec (v : Int) : compareFlagsWith Params.spec v = updateFlags v := rfl

/-! ### Meanings -/

theorem moveImmediate_eq (r : Reg) (d8 : Byte) (s : State) :
    moveImmediate r d8 s =
      .next { s with regs := s.regs.write r d8, pc := s.pc + 1, runState := .Continue } := rfl

theorem incrementRegister_eq (r : Reg) (s : State) :
    incrementRegister r s =
      .next { s with
        regs := s.regs.write r (inc8 (s.readReg r))
        flags := updateFlags ((inc8 (s.readReg r)).toNat : Int)
        runState := .Continue } := rfl

theorem compareImmediateWith_eq (p : Params) (d8 : Byte) (s : State) :
    compareImmediateWith p d8 s =
      .next { s with
        flags := compareFlagsWith p (subUnmasked (s.readReg .A) d8)
        pc := s.pc + 1
        runState := .Continue } := rfl

/-- A conditional jump's outcome (R131 to R134). -/
theorem jumpIf_returnContinue_eq (s : State) (c : Bool) (t : Addr) :
    (s.jumpIf c t).returnContinue =
      .next { s with pc := if c then t else s.pc + 2, runState := .Continue } := by
  rw [State.jumpIf_eq]
  rfl

theorem execCall_eq (a16 : Addr) (s : State) :
    execCall a16 s = .next { s.push16 s.pc with pc := a16, runState := .Continue } := rfl

theorem execRet_eq (s : State) :
    execRet s = .next { s with pc := s.read16 s.sp, sp := s.sp + 2, runState := .Continue } := rfl

/-- The seven MVI arms are one operation. -/
theorem exec_mvi (r : Reg) (d8 : Byte) (s : State) : exec (Instr.mvi r d8) s = moveImmediate r d8 s := by
  cases r <;> rfl

/-- The seven INR arms are one operation. -/
theorem exec_inr (r : Reg) (s : State) : exec (Instr.inr r) s = incrementRegister r s := by
  cases r <;> rfl

/-! ### The step -/

theorem step_eq_exec (s : State) : step s = exec s.fetchInstr s.fetchOpcode := rfl

/-- The instruction fetched, by the operation of its opcode byte. -/
theorem State.fetchInstrWith_eq (p : Params) (s : State) :
    s.fetchInstrWith p =
      match (operationWith p (s.readByte s.pc)).format (s.readByte s.pc) with
      | .implied i => i
      | .d8 build => build (s.readByte (s.pc + 1))
      | .a16 build => build (s.read16 (s.pc + 1)) := rfl

/-- The fetch decodes what the decoder reads from the three bytes at `pc`. -/
theorem State.fetchInstrWith_eq_decodeBytesWith (p : Params) (s : State) :
    s.fetchInstrWith p =
      decodeBytesWith p (s.readByte s.pc) (s.readByte (s.pc + 1)) (s.readByte (s.pc + 1 + 1)) := rfl

theorem State.fetchInstr_eq (s : State) :
    s.fetchInstr =
      match (operation (s.readByte s.pc)).format (s.readByte s.pc) with
      | .implied i => i
      | .d8 build => build (s.readByte (s.pc + 1))
      | .a16 build => build (s.read16 (s.pc + 1)) := rfl

/-- The operands a step decodes are those the operand forms read after the opcode fetch (R43, R45). -/
theorem State.operandD8_fetchOpcode (s : State) : s.fetchOpcode.operandD8 = s.readByte (s.pc + 1) := rfl

theorem State.operandA16_fetchOpcode (s : State) : s.fetchOpcode.operandA16 = s.read16 (s.pc + 1) := rfl

/-- Only CPI reads a parameter when it executes (R126). -/
theorem execWith_eq_exec {i : Instr} (h : ∀ d8, i ≠ .cpi d8) (p : Params) (s : State) :
    execWith p i s = exec i s := by
  cases i <;> first | rfl | exact absurd rfl (h _)

end Sys2Proof.Machine
end

