-- ==== Sys2Proof/Laws/PerInstr.lean ====
section
/-! SUPPORT. What holds of every instruction as syntax, one lemma per constructor. Family EncodeLength: an
instruction's bytes are as many as its format says, 1, 2 or 3 (spec/30_encoding.md R60). -/

namespace Sys2Proof.Laws.EncodeLength

open Sys2Proof

/-- The encoder writes the format's number of bytes. -/
def Statement (i : Instr) : Prop := (encode i).length = i.length ∧ 1 ≤ i.length ∧ i.length ≤ 3

/-- A length that the encoder agrees with and that is 1, 2 or 3. -/
theorem of_length {i : Instr} {n : Nat} (hn : 1 ≤ n ∧ n ≤ 3) (hl : i.length = n) (he : (encode i).length = n) :
    Statement i := by
  subst hl
  exact ⟨he, hn⟩

theorem of_one {i : Instr} : i.length = 1 → (encode i).length = 1 → Statement i := of_length (by decide)

theorem of_two {i : Instr} : i.length = 2 → (encode i).length = 2 → Statement i := of_length (by decide)

theorem of_three {i : Instr} : i.length = 3 → (encode i).length = 3 → Statement i := of_length (by decide)

theorem mviA (d8 : Byte) : Statement (.mviA d8) := of_two rfl rfl
theorem mviB (d8 : Byte) : Statement (.mviB d8) := of_two rfl rfl
theorem mviC (d8 : Byte) : Statement (.mviC d8) := of_two rfl rfl
theorem mviD (d8 : Byte) : Statement (.mviD d8) := of_two rfl rfl
theorem mviE (d8 : Byte) : Statement (.mviE d8) := of_two rfl rfl
theorem mviH (d8 : Byte) : Statement (.mviH d8) := of_two rfl rfl
theorem mviL (d8 : Byte) : Statement (.mviL d8) := of_two rfl rfl
theorem inrA : Statement .inrA := of_one rfl rfl
theorem inrB : Statement .inrB := of_one rfl rfl
theorem inrC : Statement .inrC := of_one rfl rfl
theorem inrD : Statement .inrD := of_one rfl rfl
theorem inrE : Statement .inrE := of_one rfl rfl
theorem inrH : Statement .inrH := of_one rfl rfl
theorem inrL : Statement .inrL := of_one rfl rfl
theorem hlt : Statement .hlt := of_one rfl rfl
theorem cpi (d8 : Byte) : Statement (.cpi d8) := of_two rfl rfl
theorem jmp (a16 : Addr) : Statement (.jmp a16) := of_three rfl rfl
theorem jz (a16 : Addr) : Statement (.jz a16) := of_three rfl rfl
theorem jnz (a16 : Addr) : Statement (.jnz a16) := of_three rfl rfl
theorem jc (a16 : Addr) : Statement (.jc a16) := of_three rfl rfl
theorem jnc (a16 : Addr) : Statement (.jnc a16) := of_three rfl rfl
theorem call (a16 : Addr) : Statement (.call a16) := of_three rfl rfl
theorem ret : Statement .ret := of_one rfl rfl
theorem undefined (opcode : Byte) : Statement (.undefined opcode) := of_one rfl rfl

end Sys2Proof.Laws.EncodeLength
end

