-- ==== Sys2Proof/Laws/Step.lean ====
section
/-! SUPPORT. What one step can do, said once: the step by the operation of the opcode byte at `pc`
(spec/40_cycle_and_flags.md R83). -/

namespace Sys2Proof.Machine

open Sys2Proof

/-- The step, by the operation of the byte at `pc`, with the next state written out. -/
theorem step_by_operation (s : State) :
    step s =
      match s.nextOperation with
      | .mvi r =>
        .next { s.fetchOpcode with
          regs := s.regs.write r (s.readByte (s.pc + 1)), pc := s.pc + 1 + 1, runState := .Continue }
      | .inr r =>
        .next { s.fetchOpcode with
          regs := s.regs.write r (inc8 (s.readReg r))
          flags := updateFlags ((inc8 (s.readReg r)).toNat : Int), runState := .Continue }
      | .hlt => .next { s.fetchOpcode with runState := .Halted }
      | .cpi =>
        .next { s.fetchOpcode with
          flags := updateFlags (subUnmasked (s.readReg .A) (s.readByte (s.pc + 1)))
          pc := s.pc + 1 + 1, runState := .Continue }
      | .jmp => .next { s.fetchOpcode with pc := s.read16 (s.pc + 1), runState := .Continue }
      | .jz =>
        .next { s.fetchOpcode with
          pc := if s.flags.Z then s.read16 (s.pc + 1) else s.pc + 1 + 2, runState := .Continue }
      | .jnz =>
        .next { s.fetchOpcode with
          pc := if !s.flags.Z then s.read16 (s.pc + 1) else s.pc + 1 + 2, runState := .Continue }
      | .jc =>
        .next { s.fetchOpcode with
          pc := if s.flags.CY then s.read16 (s.pc + 1) else s.pc + 1 + 2, runState := .Continue }
      | .jnc =>
        .next { s.fetchOpcode with
          pc := if !s.flags.CY then s.read16 (s.pc + 1) else s.pc + 1 + 2, runState := .Continue }
      | .call => .next { s.fetchOpcode.push16 (s.pc + 1) with pc := s.read16 (s.pc + 1), runState := .Continue }
      | .ret => .next { s.fetchOpcode with pc := s.read16 s.sp, sp := s.sp + 2, runState := .Continue }
      | .undefined => .next { s.fetchOpcode with runState := .Continue } := by
  rw [step_eq_exec, State.fetchInstr_eq, State.nextOperation]
  cases operation (s.readByte s.pc) with
  | mvi r => exact exec_mvi r _ _
  | inr r => exact exec_inr r _
  | hlt | cpi | jmp | call | ret | undefined => rfl
  | jz | jnz | jc | jnc => exact jumpIf_returnContinue_eq ..

/-- The addresses of the operand bytes (R60), as the model writes them and in simp's normal form. -/
theorem Addr.add_one_add_one (a : Addr) : a + 1 + 1 = a + 2 := by rw [BitVec.add_assoc]; rfl

theorem Addr.add_one_add_two (a : Addr) : a + 1 + 2 = a + 3 := by rw [BitVec.add_assoc]; rfl

@[simp] theorem Addr.add_ofNat_one_add_one (a : Addr) : a + 1#16 + 1#16 = a + 2#16 := by
  rw [BitVec.add_assoc]; rfl

@[simp] theorem Addr.add_ofNat_one_add_two (a : Addr) : a + 1#16 + 2#16 = a + 3#16 := by
  rw [BitVec.add_assoc]; rfl

/-- The fetch reads no flag, register or stack pointer, and a CALL's push starts from `sp` as it was. -/
@[simp] theorem State.readReg_fetchOpcode (s : State) (r : Reg) : s.fetchOpcode.readReg r = s.readReg r := rfl

@[simp] theorem State.readByte_fetchOpcode (s : State) (a : Addr) : s.fetchOpcode.readByte a = s.readByte a := rfl

/-- Parity of `sp` under the two changes it can have (R36). -/
theorem Addr.sub_two_toNat_mod_two (a : Addr) : (a - 2).toNat % 2 = a.toNat % 2 := by bv_omega

theorem Addr.add_two_toNat_mod_two (a : Addr) : (a + 2).toNat % 2 = a.toNat % 2 := by bv_omega

/-- CPI and INR never pass a value above 255 (R95). -/
theorem subUnmasked_le (a b : Byte) : subUnmasked a b ≤ 255 := by
  unfold subUnmasked
  omega

end Sys2Proof.Machine
end

