-- ==== Sys2Proof/Tests/Slice0.lean ====
section
/-! SUPPORT. The model's own tests: words written out from spec/30_encoding.md R64, vectors of
spec/95_test_vectors.md (named beside each), the ill-formed terms that WellFormed refuses, and for each
obligation with hypotheses a state that meets them. -/

namespace Sys2Proof.Tests

open Sys2Proof Sys2Proof.Machine

/-- The reset state with bytes placed at 0x0000. -/
def program (bytes : List Byte) : State := State.reset.placeBytes bytes

/-- The reset state with `pc` moved and bytes placed there. -/
def programAt (pc : Addr) (bytes : List Byte) : State := State.placeBytes { State.reset with pc := pc } bytes

/-- A projection of the state after one step. -/
def afterStep {α : Type} (s : State) (f : State → α) : Option α :=
  match step s with
  | .next t => some (f t)
  | .fault _ => none
  | .refused _ => none

/-- Z, S, P, CY, in the order of the tables of 95_test_vectors.md. -/
def flagList (s : State) : List Bool := [s.flags.Z, s.flags.S, s.flags.P, s.flags.CY]

/-! ### Well-formedness refuses -/

theorem test_wf_refuses_a_table_byte_as_undefined : (Instr.undefined 0x3E).wf = false := by decide

theorem test_wf_refuses_inr_outside_the_set :
    ∀ i ∈ [Instr.inrA, .inrB, .inrC, .inrD, .inrE, .inrH, .inrL], i.wfWith ⟨[], false⟩ = false := by decide

theorem test_wf_accepts_the_rest :
    (Instr.undefined 0x00).wf = true ∧ (Instr.undefined 0xFF).wf = true ∧ Instr.inrL.wf = true ∧
      (Instr.mviA 0xFF).wf = true ∧ (Instr.call 0xFFFF).wf = true := by decide

/-! ### Decoding: every constructor's word, written out from R64 -/

theorem test_decode_mvi :
    decode [0b00111110, 0x64] = .ok (.mviA 0x64, []) ∧ decode [0b00000110, 0x01] = .ok (.mviB 0x01, []) ∧
    decode [0b00001110, 0xFF] = .ok (.mviC 0xFF, []) ∧ decode [0b00010110, 0x00] = .ok (.mviD 0x00, []) ∧
    decode [0b00011110, 0x80] = .ok (.mviE 0x80, []) ∧ decode [0b00100110, 0x12] = .ok (.mviH 0x12, []) ∧
    decode [0b00101110, 0x34] = .ok (.mviL 0x34, []) := ⟨rfl, rfl, rfl, rfl, rfl, rfl, rfl⟩

theorem test_decode_inr :
    decode [0b00111100] = .ok (.inrA, []) ∧ decode [0b00000100] = .ok (.inrB, []) ∧
    decode [0b00001100] = .ok (.inrC, []) ∧ decode [0b00010100] = .ok (.inrD, []) ∧
    decode [0b00011100] = .ok (.inrE, []) ∧ decode [0b00100100] = .ok (.inrH, []) ∧
    decode [0b00101100] = .ok (.inrL, []) := ⟨rfl, rfl, rfl, rfl, rfl, rfl, rfl⟩

theorem test_decode_jumps :
    decode [0b11000011, 0x34, 0x12] = .ok (.jmp 0x1234, []) ∧
    decode [0b11001010, 0x09, 0x00] = .ok (.jz 0x0009, []) ∧
    decode [0b11000010, 0x02, 0x00] = .ok (.jnz 0x0002, []) ∧
    decode [0b11011010, 0x0B, 0x00] = .ok (.jc 0x000B, []) ∧
    decode [0b11010010, 0x00, 0x01] = .ok (.jnc 0x0100, []) := ⟨rfl, rfl, rfl, rfl, rfl⟩

theorem test_decode_others :
    decode [0b01110110] = .ok (.hlt, []) ∧ decode [0b11111110, 0x64] = .ok (.cpi 0x64, []) ∧
    decode [0b11001101, 0x10, 0x00] = .ok (.call 0x0010, []) ∧ decode [0b11001001] = .ok (.ret, []) ∧
    decode [0x36, 0x3C] = .ok (.undefined 0x36, [0x3C]) := ⟨rfl, rfl, rfl, rfl, rfl⟩

/-- The list decoder refuses only a list that ends too soon. -/
theorem test_decode_refuses_short_lists :
    decode [] = .error .noOpcode ∧ decode [0x3E] = .error .missingD8 ∧ decode [0xC3] = .error .missingA16 ∧
    decode [0xC3, 0x34] = .error .missingA16 := ⟨rfl, rfl, rfl, rfl⟩

/-- There are 23 distinct opcodes (R64) and 233 undefined byte values (R68). -/
theorem test_opcode_counts :
    (opcodeTable.map Prod.fst).Nodup ∧ opcodeTable.length = 23 ∧
    ((List.range 256).filter fun n => operation (BitVec.ofNat 8 n) = .undefined).length = 233 := by
  decide +kernel

theorem test_table_words :
    decodeTableWord 8 0xCD = some (.call 0x0000) ∧ decodeTableWord 24 0x1234C3 = some (.jmp 0x1234) ∧
    decodeTableWord 16 0x643E = some (.mviA 0x64) ∧ decodeTableWord 8 0x00 = some (.undefined 0x00) := by decide

theorem test_encode_address_low_byte_first : encode (.jmp 0x1234) = [0xC3, 0x34, 0x12] := by decide

/-! ### Vectors of 95_test_vectors.md -/

/-- V-UF-9, V-UF-11, V-UF-12, V-UF-14. -/
theorem test_updateFlags :
    updateFlags 256 = ⟨true, false, true, true⟩ ∧ updateFlags (-1) = ⟨false, true, true, false⟩ ∧
    updateFlags (-100) = ⟨false, true, true, false⟩ ∧ updateFlags (-255) = ⟨false, false, false, false⟩ := by decide

/-- V-CYC-3: 0xFF is undefined, not RST 7. -/
theorem test_undefined_FF :
    afterStep (program [0xFF]) (fun t => (t.pc, t.ir, t.sp, t.runState)) =
      some (0x0001, 0xFF, 0xFFFF, .Continue) := by decide

/-- V-CYC-6, S-9: past the top of memory. -/
theorem test_undefined_at_top : afterStep (programAt 0xFFFF [0x00]) (·.pc) = some 0x0000 := by decide

/-- V-MVI-1. -/
theorem test_mviA : afterStep (program [0x3E, 0x64]) (fun t => (t.regs.A, t.pc, t.ir)) = some (0x64, 0x0002, 0x3E) := by
  decide

/-- V-MVI-8: the operand wraps to 0x0000. -/
theorem test_mviA_at_top :
    afterStep (programAt 0xFFFF [0x3E, 0x42]) (fun t => (t.regs.A, t.pc)) = some (0x42, 0x0001) := by decide

/-- V-MVI-9: the operand 0x76 is data, not HLT. -/
theorem test_mviB :
    afterStep (program [0x06, 0x76]) (fun t => (t.regs.B, t.pc, t.runState)) = some (0x76, 0x0002, .Continue) := by
  decide

/-- V-MVI-3. -/
theorem test_mviC : afterStep (program [0x0E, 0xFF]) (fun t => (t.regs.C, t.pc)) = some (0xFF, 0x0002) := by decide

/-- V-MVI-4: a zero operand leaves Z as it was. -/
theorem test_mviD :
    afterStep { program [0x16, 0x00] with regs := ⟨0, 0, 0, 0x7F, 0, 0, 0⟩, flags := ⟨true, false, false, false⟩ }
      (fun t => (t.regs.D, flagList t)) = some (0x00, [true, false, false, false]) := by decide

/-- V-MVI-5. -/
theorem test_mviE :
    afterStep (program [0x1E, 0x80]) (fun t => (t.regs.E, t.flags.S)) = some (0x80, false) := by decide

/-- V-MVI-6, V-MVI-7. -/
theorem test_mviH : afterStep (program [0x26, 0x12]) (fun t => (t.regs.H, t.regs.L)) = some (0x12, 0x00) := by decide

theorem test_mviL : afterStep (program [0x2E, 0x34]) (fun t => (t.regs.L, t.regs.H)) = some (0x34, 0x00) := by decide

/-- V-INR-8: CY is cleared. -/
theorem test_inrA :
    afterStep { program [0x3C] with flags := ⟨true, false, false, true⟩ }
      (fun t => (t.regs.A, flagList t, t.pc)) = some (0x01, [false, false, false, false], 0x0001) := by decide

/-- V-INR-2. -/
theorem test_inrB :
    afterStep { program [0x04] with regs := ⟨0, 0x01, 0, 0, 0, 0, 0⟩ } (fun t => (t.regs.B, flagList t)) =
      some (0x02, [false, false, false, false]) := by decide

/-- V-INR-3. -/
theorem test_inrC :
    afterStep { program [0x0C] with regs := ⟨0, 0, 0x7F, 0, 0, 0, 0⟩ } (fun t => (t.regs.C, flagList t)) =
      some (0x80, [false, true, false, false]) := by decide

/-- V-INR-4. -/
theorem test_inrD :
    afterStep { program [0x14] with regs := ⟨0, 0, 0, 0x80, 0, 0, 0⟩ } (fun t => (t.regs.D, flagList t)) =
      some (0x81, [false, true, true, false]) := by decide

/-- V-INR-5. -/
theorem test_inrE :
    afterStep { program [0x1C] with regs := ⟨0, 0, 0, 0, 0xFE, 0, 0⟩ } (fun t => (t.regs.E, flagList t)) =
      some (0xFF, [false, true, true, false]) := by decide

/-- V-INR-6: no carry into L. -/
theorem test_inrH :
    afterStep { program [0x24] with regs := ⟨0, 0, 0, 0, 0, 0xFF, 0x00⟩ }
      (fun t => (t.regs.H, t.regs.L, flagList t)) = some (0x00, 0x00, [true, false, true, false]) := by decide

/-- R116's example: no carry into H. -/
theorem test_inrL :
    afterStep { program [0x2C] with regs := ⟨0, 0, 0, 0, 0, 0x12, 0xFF⟩ }
      (fun t => (t.regs.L, t.regs.H, flagList t)) = some (0x00, 0x12, [true, false, true, false]) := by decide

/-- V-HLT-2. -/
theorem test_hlt :
    afterStep (programAt 0xFFFF [0x76]) (fun t => (t.runState, t.pc, t.ir)) = some (.Halted, 0x0000, 0x76) := by decide

/-- V-CPI-1: the sample's CPI, CY corrected by C2. -/
theorem test_cpi_negative :
    afterStep (program [0xFE, 0x64]) (fun t => (flagList t, t.regs.A, t.pc)) =
      some ([false, true, true, false], 0x00, 0x0002) := by decide

/-- V-CPI-6. -/
theorem test_cpi_positive :
    afterStep { program [0xFE, 0x01] with regs := ⟨0x80, 0, 0, 0, 0, 0, 0⟩ } flagList =
      some [false, false, false, false] := by decide

/-- V-CPI-7 and V-CPI-2 under `CPI_NEG_SETS_CY = true`: 0x01 - 0x80 and 0x05 - 0x05. -/
theorem test_cpi_parameter :
    (compareFlagsWith ⟨[], true⟩ (subUnmasked 0x01 0x80) = ⟨false, true, true, true⟩) ∧
    (compareFlagsWith ⟨[], true⟩ (subUnmasked 0x05 0x05) = ⟨true, false, true, false⟩) := by decide

/-- V-J-2, V-J-3: the operand across the top of memory. -/
theorem test_jmp :
    afterStep (programAt 0xFFFE [0xC3, 0x34, 0x12]) (·.pc) = some 0x1234 ∧
    afterStep (programAt 0xFFFF [0xC3, 0x34, 0x12]) (fun t => (t.pc, t.ir)) = some (0x1234, 0xC3) := by decide

/-- V-J-5, V-J-7. -/
theorem test_jz :
    afterStep { programAt 0x0003 [0xCA, 0x09, 0x00] with flags := ⟨true, false, false, false⟩ } (·.pc) =
      some 0x0009 ∧
    afterStep (programAt 0xFFFD [0xCA, 0x09, 0x00]) (·.pc) = some 0x0000 := by decide

/-- V-J-8, V-J-9. -/
theorem test_jnz :
    afterStep (programAt 0x0005 [0xC2, 0x02, 0x00]) (·.pc) = some 0x0002 ∧
    afterStep { programAt 0x0005 [0xC2, 0x02, 0x00] with flags := ⟨true, false, false, false⟩ } (·.pc) =
      some 0x0008 := by decide

/-- V-J-10, V-J-11. -/
theorem test_jc :
    afterStep (programAt 0x0004 [0xDA, 0x0B, 0x00]) (·.pc) = some 0x0007 ∧
    afterStep { programAt 0x0004 [0xDA, 0x0B, 0x00] with flags := ⟨false, false, false, true⟩ } (·.pc) =
      some 0x000B := by decide

/-- V-J-12, V-J-13. -/
theorem test_jnc :
    afterStep (program [0xD2, 0x00, 0x01]) (·.pc) = some 0x0100 ∧
    afterStep { program [0xD2, 0x00, 0x01] with flags := ⟨false, false, false, true⟩ } (·.pc) = some 0x0003 := by
  decide

/-- V-CR-4: the push wraps. -/
theorem test_call_wraps :
    afterStep { programAt 0x0200 [0xCD, 0x00, 0x30] with sp := 0x0001 }
      (fun t => (t.readByte 0xFFFF, t.readByte 0x0000, t.sp, t.pc)) = some (0x01, 0x02, 0xFFFF, 0x3000) := by decide

/-- V-CR-5: the push covers the operand, which was read first. -/
theorem test_call_over_its_operand :
    afterStep { programAt 0x1000 [0xCD, 0x00, 0x20] with sp := 0x1003 }
      (fun t => (t.pc, t.readByte 0x1001, t.readByte 0x1002, t.sp)) = some (0x2000, 0x01, 0x10, 0x1001) := by decide

/-- V-CR-3: RET with nothing pushed, across the top of memory. -/
theorem test_ret : afterStep (program [0xC9]) (fun t => (t.pc, t.sp)) = some (0xC900, 0x0001) := by decide

/-- V-HOST-3: a load that wraps; V-HOST-1: the reset StateView. -/
theorem test_load_wraps :
    ((programAt 0xFFFF [0x11, 0x22]).readByte 0xFFFF, (programAt 0xFFFF [0x11, 0x22]).readByte 0x0000) =
      (0x11, 0x22) := by decide

theorem test_reset_view :
    State.reset.view = ⟨0, 0, 0, 0, 0, 0, 0, 0x0000, 0xFFFF, 0x00, false, false, false, false⟩ := by decide

/-- Equal memories are equal data: a byte written and written back to zero leaves no entry. -/
theorem test_memory_canonical :
    Memory.write (Memory.write [(0x0001, 0x11)] 0x0005 0x22) 0x0005 0x00 = [(0x0001, 0x11)] := by decide

/-- `withFetchWord` from reset: the very next step runs the word. -/
theorem test_withFetchWord :
    afterStep (State.reset.withFetchWord 8 0x3C) (fun t => (t.regs.A, t.pc)) = some (0x01, 0x0001) := by decide

/-! ### Witnesses: states and operands that meet the hypotheses of the obligations -/

theorem witness_HltReturnsHaltedAndChangesNothing :
    (programAt 0xFFFF [0x76]).readByte (programAt 0xFFFF [0x76]).pc = 0x76 := by decide

theorem witness_UndefinedOpcodeIsAOneByteNoOp :
    State.reset.nextOperation = .undefined ∧ (programAt 0xFFFF [0xFF]).nextOperation = .undefined := by decide

theorem witness_StepRunsTheDecodedInstruction :
    let s := programAt 0xFFFE [0xC3, 0x34, 0x12]
    decode [s.readByte s.pc, s.readByte (s.pc + 1), s.readByte (s.pc + 2)] = .ok (.jmp 0x1234, []) := rfl

theorem witness_OutcomeIsHaltedExactlyOnHlt :
    (program [0x76]).nextOperation = .hlt ∧ State.reset.nextOperation ≠ .hlt := by decide

theorem witness_RegistersChangeOnlyByMviAndInr :
    (program [0x3E, 0xFF]).nextOperation = .mvi .A ∧ (program [0x2C]).nextOperation = .inr .L ∧
    State.reset.nextOperation ≠ .mvi .A ∧ State.reset.nextOperation ≠ .inr .A := by decide

theorem witness_FlagsChangeOnlyByInrAndCpi :
    (program [0x3C]).nextOperation = .inr .A ∧ (program [0xFE, 0x64]).nextOperation = .cpi ∧
    (∀ r ∈ [Reg.A, .B, .C, .D, .E, .H, .L], State.reset.nextOperation ≠ .inr r) ∧
    State.reset.nextOperation ≠ .cpi := by decide

theorem witness_SpChangesOnlyByCallAndRet :
    (program [0xCD, 0x10, 0x00]).nextOperation = .call ∧ (program [0xC9]).nextOperation = .ret ∧
    State.reset.nextOperation ≠ .call ∧ State.reset.nextOperation ≠ .ret ∧
    (Command.load [0x01] ≠ .new ∧ Command.load [0x01] ≠ .reset ∧ Command.load [0x01] ≠ .step) := by decide

theorem witness_MemoryChangesOnlyByCall :
    (program [0xCD, 0x10, 0x00]).nextOperation = .call ∧
    (0x0000 : Addr) ≠ (program [0xCD, 0x10, 0x00]).sp - 2 ∧ (0x0000 : Addr) ≠ (program [0xCD, 0x10, 0x00]).sp - 1 ∧
    State.reset.nextOperation ≠ .call := by decide

theorem witness_CallPushesTheAddressOfItsOperand :
    (0xFFFE : Addr) ≠ (0x0001 : Addr) - 2 ∧ (0xFFFE : Addr) ≠ (0x0001 : Addr) - 1 := by decide

theorem witness_StepDependsOnlyOnTheBytesItReads :
    let s := program [0xC3, 0x34, 0x12]
    let m : Memory := s.mem ++ [(0x8000, 0x55)]
    m ≠ s.mem ∧ Memory.read m s.pc.toNat = s.readByte s.pc ∧
    Memory.read m (s.pc + 1).toNat = s.readByte (s.pc + 1) ∧
    Memory.read m (s.pc + 2).toNat = s.readByte (s.pc + 2) ∧
    Memory.read m s.sp.toNat = s.readByte s.sp ∧ Memory.read m (s.sp + 1).toNat = s.readByte (s.sp + 1) := by decide

theorem witness_StepAfterHltRunsTheNextByte :
    (program [0x76, 0x3C]).readByte (program [0x76, 0x3C]).pc = 0x76 := by decide

theorem witness_LengthComesFromTheOpcodeByte :
    operation 0x00 = .undefined ∧ (programAt 0xFFFD [0xCA, 0x09, 0x00]).transfersControl = false ∧
    (programAt 0xFFFF [0x3E]).transfersControl = false := by decide

theorem witness_UpdateFlagsOnBytesAndAbove : (255 : Nat) ≤ 255 ∧ (256 : Int) > 255 := by decide

theorem witness_StepKeepsTheInvariant :
    State.Inv { program [0xCD, 0x10, 0x00] with sp := 0x0001 } ∧ (program [0xC9]).Inv := by decide

theorem witness_CommandsKeepTheInvariant : (programAt 0xFFFF [0x11, 0x22]).Inv := by decide

theorem witness_CarryStaysClear :
    (program [0xDA, 0x0B, 0x00]).CarryClear ∧ (program [0xDA, 0x0B, 0x00]).nextOperation = .jc ∧
    (program [0xD2, 0x00, 0x01]).CarryClear ∧ (program [0xD2, 0x00, 0x01]).nextOperation = .jnc := by decide

theorem witness_MemoriesThatReadAlikeAreEqual :
    Memory.wf [(0, 0x01), (65535, 0xFF)] = true ∧
    ∀ a : Addr, Memory.read [(0, 0x01), (65535, 0xFF)] a.toNat = Memory.read [(0, 0x01), (65535, 0xFF)] a.toNat :=
  ⟨by decide, fun _ => rfl⟩

theorem witness_OpcodeMapIsTheTable :
    (∀ r ∈ [Reg.A, .B, .C, .D, .E, .H, .L], (0xFF : Byte) ≠ mviOpcode r ∧ (0xFF : Byte) ≠ inrOpcode r) ∧
    (0xFF : Byte) ∉ [(0x76 : Byte), 0xFE, 0xC3, 0xCA, 0xC2, 0xDA, 0xD2, 0xCD, 0xC9] := by decide

theorem witness_DecodeInvertsEncode :
    (Instr.undefined 0x34).wf = true ∧ Instr.inrB.wfWith ⟨[.B], true⟩ = true ∧ (Instr.jmp 0xFFFF).wf = true := by
  decide

theorem witness_EncodeInvertsDecode :
    decodeWith ⟨[], true⟩ [0x3C, 0x76] = .ok (.undefined 0x3C, [0x76]) := rfl

theorem witness_EveryByteValueDecodes : operationWith ⟨[], false⟩ 0x3C = .undefined ∧ operation 0xFF = .undefined := by
  decide

theorem witness_LoadWritesFromThePc :
    (1 < [(0x11 : Byte), 0x22].length ∧ [(0x11 : Byte), 0x22].length ≤ 1 + 65536) ∧
    (∀ i : Nat, i < [(0x11 : Byte), 0x22].length → (0x0001 : Addr) ≠ (0xFFFF : Addr) + BitVec.ofNat 16 i) := by decide

/-- The later byte of a load that wraps onto itself: 65537 bytes, index 65536 kept and index 0 overwritten. -/
theorem witness_LoadWritesFromThePc_wrapping (b : Byte) :
    65536 < (List.replicate 65537 b).length ∧ (List.replicate 65537 b).length ≤ 65536 + 65536 ∧
    ¬ (List.replicate 65537 b).length ≤ 0 + 65536 := by
  rw [List.length_replicate]
  omega

theorem witness_MemoryCommandsChangeOnlyMemory :
    (Command.load [0x01] = .load [0x01]) ∧ (Command.peekMemory 0x1234 = .peekMemory 0x1234) ∧
    (Command.pokeMemory 0x0000 0x3C = .pokeMemory 0x0000 0x3C) := by decide

theorem witness_PokeSetsOneByteAndPeekReadsIt : (0x0000 : Addr) = State.reset.pc ∧ (0x0001 : Addr) ≠ 0x0000 := by decide

theorem witness_LoadedInstructionRuns :
    (Instr.call 0x0010).wf = true ∧ (encode (.call 0x0010) ++ [0x76]).length ≤ 65536 := by decide

theorem witness_RunEndsAtTheFirstHalted :
    0 < 1 ∧ (∃ t, runUntilHalted 1 (program [0x76]) = .next t ∧ t.runState = .Halted) ∧
    (∃ t, runUntilHalted 1 (program [0x3C]) = .next t ∧ t.runState = .Continue) :=
  ⟨by decide, ⟨_, rfl, rfl⟩, ⟨_, rfl, rfl⟩⟩

theorem witness_CpiParameterChangesOnlyCarry :
    (Params.mk [.A] true).cpiNegSetsCY = true ∧ (State.reset.readReg .A).toNat < (0x64 : Byte).toNat := by decide

theorem witness_InrOutsideTheSetIsANoOp :
    (program [0x04]).readByte (program [0x04]).pc = inrOpcode .B ∧
    Reg.B ∉ (Params.mk [.A] false).inrSet ∧ Reg.B ∈ (Params.mk [.B] true).inrSet := by decide

/-- S-6: CALL 0x0010 with RET at 0x0010. -/
theorem witness_CallThenRetReturnsToTheOperand :
    let s := { program [0xCD, 0x10, 0x00] with mem := Memory.write (program [0xCD, 0x10, 0x00]).mem 0x10 0xC9 }
    s.readByte s.pc = 0xCD ∧ afterStep s (fun t => t.readByte t.pc) = some 0xC9 := by decide

end Sys2Proof.Tests
end

section
/-! The stack pointer (spec/10_state.md R29): what a step and what a command of the host make of it. -/

namespace Sys2Proof.Machine

open Sys2Proof

/-! ### The step -/

/-- `sp` after a step of the operation: CALL pushes, RET pops, nothing else moves it (R29). -/
def spAfter (sp : Addr) : Operation → Addr
  | .call => sp - 2
  | .ret => sp + 2
  | .mvi _ | .inr _ | .hlt | .cpi | .jmp | .jz | .jnz | .jc | .jnc | .undefined => sp

theorem spAfter_call_toNat (sp : Addr) :
    (spAfter sp .call).toNat = (sp.toNat + 65534) % 65536 := by
  rw [spAfter]
  bv_omega

theorem spAfter_ret_toNat (sp : Addr) :
    (spAfter sp .ret).toNat = (sp.toNat + 2) % 65536 := BitVec.toNat_add ..

theorem spAfter_of_ne_call_of_ne_ret {o : Operation} (hcall : o ≠ .call) (hret : o ≠ .ret) (sp : Addr) :
    spAfter sp o = sp := by
  cases o with
  | call => exact absurd rfl hcall
  | ret => exact absurd rfl hret
  | mvi | inr | hlt | cpi | jmp | jz | jnz | jc | jnc | undefined => rfl

/-- Every step completes, and its operation alone says what becomes of `sp`. -/
theorem step_sp (s : State) : ∃ t, step s = .next t ∧ t.sp = spAfter s.sp s.nextOperation := by
  rw [step_by_operation]
  cases s.nextOperation with
  | call => exact ⟨_, rfl, State.push16_sp s.fetchOpcode (s.pc + 1)⟩
  | ret => exact ⟨_, rfl, rfl⟩
  | mvi | inr | hlt | cpi | jmp | jz | jnz | jc | jnc | undefined => exact ⟨_, rfl, State.fetchOpcode_sp s⟩

/-! ### The commands of the host -/

@[simp] theorem State.writeBytes_sp (a : Addr) (bs : List Byte) (s : State) :
    (State.writeBytes a bs s).sp = s.sp := by
  rw [State.writeBytes_eq]

@[simp] theorem State.placeBytes_sp (s : State) (bs : List Byte) : (s.placeBytes bs).sp = s.sp :=
  State.writeBytes_sp ..

/-- `load`, `snapshot`, `peek_memory` and `poke_memory` complete and leave `sp` alone (R172, R175 to R177). -/
theorem Command.run_sp_of_ne {c : Command} (hnew : c ≠ .new) (hreset : c ≠ .reset) (hstep : c ≠ .step)
    (s : State) : ∃ t r, c.run s = .next (t, r) ∧ t.sp = s.sp := by
  cases c with
  | new => exact absurd rfl hnew
  | reset => exact absurd rfl hreset
  | step => exact absurd rfl hstep
  | load bytes => exact ⟨_, _, rfl, State.placeBytes_sp s bytes⟩
  | snapshot | peekMemory => exact ⟨_, _, rfl, rfl⟩
  | pokeMemory addr value => exact ⟨_, _, rfl, State.writeByte_sp s addr value⟩

/-! ### The obligation -/

/-- Settles O18: `step_sp` names the `sp` of the next state by its operation, and `Command.run_sp_of_ne`
covers the host's four other commands. -/
theorem spChangesOnlyByCallAndRet : Obligations.SpChangesOnlyByCallAndRet := by
  unfold Obligations.SpChangesOnlyByCallAndRet
  refine ⟨rfl, fun s => ?_, fun s _ hnew hreset hstep => Command.run_sp_of_ne hnew hreset hstep s⟩
  obtain ⟨t, ht, hsp⟩ := step_sp s
  refine ⟨t, ht, fun hcall => ?_, fun hret => ?_, fun hcall hret => ?_⟩
  · rw [hsp, hcall, spAfter_call_toNat]
  · rw [hsp, hret, spAfter_ret_toNat]
  · rw [hsp, spAfter_of_ne_call_of_ne_ret hcall hret]

end Sys2Proof.Machine
end

section
/-! The host's memory commands (spec/20_memory.md R58): the frame of `load`, `peek_memory` and `poke_memory`. -/

namespace Sys2Proof.Machine

open Sys2Proof

/-- Placing bytes at `pc`, which is all that `load` does, changes memory only. -/
theorem State.placeBytes_eq (s : State) (bs : List Byte) :
    s.placeBytes bs = { s with mem := (s.placeBytes bs).mem } := State.writeBytes_eq bs s.pc s

/-- Each memory command completes, and the state after it is the state before with some memory in place of its own
(R58). -/
theorem Command.run_changes_only_mem {s : State} {bytes : List Byte} {a : Addr} {v : Byte} {c : Command}
    (hc : c = .load bytes ∨ c = .peekMemory a ∨ c = .pokeMemory a v) :
    ∃ m r, c.run s = .next ({ s with mem := m }, r) := by
  obtain rfl | rfl | rfl := hc
  case inl =>
    refine ⟨(s.placeBytes bytes).mem, .done, ?_⟩
    rw [← State.placeBytes_eq]
    rfl
  case inr.inl => exact ⟨s.mem, .byte (s.readByte a), rfl⟩
  case inr.inr => exact ⟨Memory.write s.mem a.toNat v, .done, rfl⟩

/-- Settles O39: by `Command.run_changes_only_mem` the state after the command differs from `s` in memory at most. -/
theorem memoryCommandsChangeOnlyMemory : Obligations.MemoryCommandsChangeOnlyMemory := by
  unfold Obligations.MemoryCommandsChangeOnlyMemory
  intro s bytes a v c hc
  obtain ⟨m, r, hrun⟩ := Command.run_changes_only_mem hc
  exact ⟨{ s with mem := m }, r, hrun, rfl, rfl, rfl, rfl, rfl⟩

end Sys2Proof.Machine
end

section
/-! The length of an instruction (spec/30_encoding.md R66): the operation of the opcode byte decides it, and `pc`
moves by it in a step that does not transfer control. -/

namespace Sys2Proof

/-- The bytes an operation's format takes (R60, R64). -/
def Operation.length : Operation → Nat
  | .mvi _ | .cpi => 2
  | .jmp | .jz | .jnz | .jc | .jnc | .call => 3
  | .inr _ | .hlt | .ret | .undefined => 1

@[simp] theorem Instr.length_mvi (r : Reg) (d8 : Byte) : (Instr.mvi r d8).length = 2 := by
  cases r <;> rfl

@[simp] theorem Instr.length_inr (r : Reg) : (Instr.inr r).length = 1 := by
  cases r <;> rfl

/-- The operation alone decides how long the decoded instruction is, under any parameters. -/
theorem length_decodeBytesWith (p : Params) (op b1 b2 : Byte) :
    (decodeBytesWith p op b1 b2).length = (operationWith p op).length := by
  unfold decodeBytesWith
  cases operationWith p op with
  | mvi r => exact Instr.length_mvi r b1
  | inr r => exact Instr.length_inr r
  | hlt | cpi | jmp | jz | jnz | jc | jnc | call | ret | undefined => rfl

theorem length_decodeBytes (op b1 b2 : Byte) : (decodeBytes op b1 b2).length = (operation op).length :=
  length_decodeBytesWith ..

end Sys2Proof

namespace Sys2Proof.Machine

open Sys2Proof

theorem State.length_fetchInstr (s : State) : s.fetchInstr.length = s.nextOperation.length :=
  length_decodeBytes ..

/-- Without a transfer of control `pc` moves past the instruction, whatever the operation. -/
theorem step_pc_of_not_transfersControl {s : State} (h : s.transfersControl = false) :
    ∃ t, step s = .next t ∧ t.pc = s.pc + BitVec.ofNat 16 s.nextOperation.length := by
  rw [step_by_operation]
  unfold State.transfersControl at h
  revert h
  cases s.nextOperation with
  | mvi | cpi => exact fun _ => ⟨_, rfl, Addr.add_one_add_one s.pc⟩
  | inr | hlt | undefined => exact fun _ => ⟨_, rfl, rfl⟩
  | jmp | call | ret => exact nofun
  | jz | jnz | jc | jnc => exact fun h => ⟨_, rfl, by simp [h, Operation.length]⟩

/-- Settles O23: `length_decodeBytes` gives the length by the operation of the opcode byte, and
`step_pc_of_not_transfersControl` moves `pc` by that length. -/
theorem lengthComesFromTheOpcodeByte : Obligations.LengthComesFromTheOpcodeByte := by
  unfold Obligations.LengthComesFromTheOpcodeByte
  refine ⟨fun op b1 b2 c1 c2 => ?_, fun op b1 b2 hop => ?_, fun s hs => ?_⟩
  · rw [length_decodeBytes, length_decodeBytes]
  · rw [length_decodeBytes, hop, Operation.length]
  · obtain ⟨t, ht, hpc⟩ := step_pc_of_not_transfersControl hs
    refine ⟨t, ht, ?_⟩
    rw [hpc, State.length_fetchInstr, BitVec.toNat_add, BitVec.toNat_ofNat, Nat.add_mod_mod]

end Sys2Proof.Machine
end

section
/-! The cycle (spec/40_cycle_and_flags.md R80 to R85): the fetch that every step begins with, the outcome of the
step, and the undefined opcodes. -/

namespace Sys2Proof.Machine

open Sys2Proof

/-! ### The fetch -/

/-- The fetch moves `pc` up by one mod 65536 (R81). -/
theorem State.fetchOpcode_pc_toNat (s : State) : s.fetchOpcode.pc.toNat = (s.pc.toNat + 1) % 65536 :=
  BitVec.toNat_add ..

/-- Settles O10: the state the instruction executes from is `s.fetchOpcode`, and the laws of the fetch name its
fields. -/
theorem everyStepBeginsWithTheFetch : Obligations.EveryStepBeginsWithTheFetch := by
  unfold Obligations.EveryStepBeginsWithTheFetch
  exact fun s => ⟨s.fetchOpcode, step_eq_exec s, s.fetchOpcode_ir, s.fetchOpcode_pc_toNat, s.fetchOpcode_regs,
    s.fetchOpcode_sp, s.fetchOpcode_flags, s.fetchOpcode_mem⟩

/-! ### The outcome -/

/-- What a step of the operation returns (R84). -/
def outcomeOf : Operation → RunState
  | .hlt => .Halted
  | .mvi _ | .inr _ | .cpi | .jmp | .jz | .jnz | .jc | .jnc | .call | .ret | .undefined => .Continue

theorem outcomeOf_of_ne_hlt {o : Operation} (h : o ≠ .hlt) : outcomeOf o = .Continue := by
  cases o with
  | hlt => exact absurd rfl h
  | mvi | inr | cpi | jmp | jz | jnz | jc | jnc | call | ret | undefined => rfl

theorem outcomeOf_eq_halted_iff {o : Operation} : outcomeOf o = .Halted ↔ o = .hlt := by
  refine ⟨fun h => ?_, fun h => by rw [h, outcomeOf]⟩
  by_contra hne
  rw [outcomeOf_of_ne_hlt hne] at h
  exact nomatch h

theorem outcomeOf_eq_continue_iff {o : Operation} : outcomeOf o = .Continue ↔ o ≠ .hlt := by
  refine ⟨fun h hhlt => ?_, outcomeOf_of_ne_hlt⟩
  rw [hhlt] at h
  exact nomatch h

/-- Every step completes, and its operation alone says what it returns. -/
theorem step_outcome (s : State) : ∃ t, step s = .next t ∧ t.runState = outcomeOf s.nextOperation := by
  rw [step_by_operation]
  cases s.nextOperation with
  | mvi | inr | hlt | cpi | jmp | jz | jnz | jc | jnc | call | ret | undefined => exact ⟨_, rfl, rfl⟩

theorem step_completes (s : State) : Completes s := by
  obtain ⟨t, ht, -⟩ := step_outcome s
  exact ⟨t, ht⟩

/-- A step on the halt opcode is the fetch and the answer Halted (R84). -/
theorem step_of_hlt {s : State} (h : s.nextOperation = .hlt) :
    step s = .next { s.fetchOpcode with runState := .Halted } := by
  rw [step_by_operation, h]

/-- A step on an undefined opcode is the fetch and the answer Continue (R82). -/
theorem step_of_undefined {s : State} (h : s.nextOperation = .undefined) :
    step s = .next { s.fetchOpcode with runState := .Continue } := by
  rw [step_by_operation, h]

/-- An undefined opcode does nothing when executed, whichever byte it carries (R82). -/
theorem exec_undefined (opcode : Byte) (s : State) :
    exec (.undefined opcode) s = .next { s with runState := .Continue } := rfl

/-! ### The obligations -/

/-- Settles O12, by `step_completes`: no operation answers a fault or a refusal. -/
theorem everyStepCompletes : Obligations.EveryStepCompletes := by
  unfold Obligations.EveryStepCompletes
  exact step_completes

/-- Settles O13: `step_outcome` names the outcome by the operation, and on the halt opcode `step_of_hlt` names the
whole next state. -/
theorem outcomeIsHaltedExactlyOnHlt : Obligations.OutcomeIsHaltedExactlyOnHlt := by
  unfold Obligations.OutcomeIsHaltedExactlyOnHlt
  intro s
  obtain ⟨t, ht, hrun⟩ := step_outcome s
  refine ⟨t, ht, hrun ▸ outcomeOf_eq_halted_iff, hrun ▸ outcomeOf_eq_continue_iff, fun hhlt => ?_⟩
  rw [step_of_hlt hhlt] at ht
  cases ht
  exact ⟨s.fetchOpcode_regs, s.fetchOpcode_sp, s.fetchOpcode_flags, s.fetchOpcode_mem, s.fetchOpcode_pc_toNat⟩

/-- Settles O9: `exec_undefined` for the execution, and `step_of_undefined` with the fetch for the step. -/
theorem undefinedOpcodeIsAOneByteNoOp : Obligations.UndefinedOpcodeIsAOneByteNoOp := by
  unfold Obligations.UndefinedOpcodeIsAOneByteNoOp
  exact ⟨exec_undefined, fun s hs => ⟨_, step_of_undefined hs, rfl, s.fetchOpcode_pc_toNat⟩⟩

end Sys2Proof.Machine
end

section
/-! The increment and `UpdateFlags` as arithmetic (spec/40_cycle_and_flags.md R90, R94): Z, S and P read off the
number that a byte stands for. -/

namespace Sys2Proof.Machine

open Sys2Proof

/-! ### The increment -/

theorem inc8_toNat (x : Byte) : (inc8 x).toNat = (x.toNat + 1) % 256 := BitVec.toNat_add ..

theorem inc8_FF : inc8 0xFF = 0x00 := by decide

/-- Settles O24, by `inc8_toNat` and `inc8_FF`. -/
theorem incrementWraps : Obligations.IncrementWraps := by
  unfold Obligations.IncrementWraps
  exact ⟨inc8_toNat, inc8_FF⟩

/-! ### The flags of a byte -/

/-- The sign bit of a byte is what the mask 0x80 leaves of its number (R26). -/
theorem getLsbD_seven_eq_decide_and (x : Byte) : x.getLsbD 7 = decide (x.toNat &&& 0x80 ≠ 0) := by
  rw [← BitVec.testBit_toNat, show (0x80 : Nat) = 2 ^ 7 from rfl, Nat.and_two_pow]
  cases x.toNat.testBit 7 <;> rfl

/-- `popcount` counts the 1 bits of the byte's number (R10). -/
theorem popcount_eq_countP_testBit (x : Byte) :
    popcount x = (List.range 8).countP fun i => x.toNat.testBit i := by
  simp only [popcount, List.range_succ, List.range_zero, List.countP_append, List.countP_singleton, List.countP_nil,
    BitVec.testBit_toNat, Bool.toNat, Bool.cond_eq_ite, Nat.zero_add]

/-- `UpdateFlags` of a byte in terms of its number (R94). -/
theorem updateFlags_byte (x : Byte) :
    updateFlags (x.toNat : Int) =
      { Z := decide (x.toNat = 0), S := decide (x.toNat &&& 0x80 ≠ 0),
        P := decide (((List.range 8).countP fun i => x.toNat.testBit i) % 2 = 0), CY := false } := by
  have hCY : ¬ (x.toNat : Int) > 0xFF := by omega
  have hZ : x = 0 ↔ x.toNat = 0 := BitVec.toNat_inj.symm
  rw [updateFlags, masked_byte, getLsbD_seven_eq_decide_and, popcount_eq_countP_testBit, decide_eq_false hCY,
    decide_eq_decide.mpr hZ]

/-- Above 255 the carry is set (R94). -/
theorem updateFlags_CY_of_gt {v : Int} (h : v > 255) : (updateFlags v).CY = true := by
  rw [updateFlags_CY, decide_eq_true h]

/-- Settles O25: a number up to 255 is that of a byte, where `updateFlags_byte` applies. -/
theorem updateFlagsOnBytesAndAbove : Obligations.UpdateFlagsOnBytesAndAbove := by
  unfold Obligations.UpdateFlagsOnBytesAndAbove
  refine ⟨fun v hv => ?_, fun v => updateFlags_CY_of_gt⟩
  have hbyte : (BitVec.ofNat 8 v).toNat = v := Nat.mod_eq_of_lt (by omega)
  rw [← hbyte]
  exact updateFlags_byte (BitVec.ofNat 8 v)

end Sys2Proof.Machine
end

section
/-! The host's access to one byte (spec/70_reset_and_hazards.md R176, R177): `peek_memory` and `poke_memory`, and the
fetch that sees a poke. -/

namespace Sys2Proof.Machine

open Sys2Proof

/-! ### The fetched byte -/

/-- Every step completes, and `ir` then holds the byte that stood at `pc` before it (R30). -/
theorem step_ir (s : State) : ∃ t, step s = .next t ∧ t.ir = s.readByte s.pc := by
  rw [step_by_operation]
  cases s.nextOperation with
  | call => exact ⟨_, rfl, State.push16_ir s.fetchOpcode (s.pc + 1)⟩
  | mvi | inr | hlt | cpi | jmp | jz | jnz | jc | jnc | ret | undefined => exact ⟨_, rfl, s.fetchOpcode_ir⟩

/-- A byte poked at `pc` is the next step's `ir` (R177). -/
theorem step_writeByte_pc_ir (s : State) (v : Byte) :
    ∃ u, step (s.writeByte s.pc v) = .next u ∧ u.ir = v := by
  obtain ⟨u, hu, hir⟩ := step_ir (s.writeByte s.pc v)
  rw [State.writeByte_pc, State.readByte_writeByte_self] at hir
  exact ⟨u, hu, hir⟩

/-! ### The two commands -/

/-- Writing a byte changes memory only. -/
theorem State.writeByte_eq (s : State) (a : Addr) (v : Byte) :
    s.writeByte a v = { s with mem := (s.writeByte a v).mem } := rfl

@[simp] theorem Command.run_pokeMemory (s : State) (a : Addr) (v : Byte) :
    Command.run (.pokeMemory a v) s = .next (s.writeByte a v, .done) := rfl

@[simp] theorem Command.run_peekMemory (s : State) (a : Addr) :
    Command.run (.peekMemory a) s = .next (s, .byte (s.readByte a)) := rfl

/-! ### The obligation -/

/-- Settles O40: a poke is `State.writeByte`, whose laws give the frame and the two reads; a peek is
`State.readByte`; and `step_writeByte_pc_ir` is the fetch after a poke at `pc`. -/
theorem pokeSetsOneByteAndPeekReadsIt : Obligations.PokeSetsOneByteAndPeekReadsIt := by
  unfold Obligations.PokeSetsOneByteAndPeekReadsIt
  intro s a v
  refine ⟨s.writeByte a v, Command.run_pokeMemory s a v, State.writeByte_eq s a v,
    fun b hb => State.readByte_writeByte_of_ne hb s v, State.readByte_writeByte_self s a v,
    Command.run_peekMemory (s.writeByte a v), fun ha => ?_⟩
  rw [ha]
  exact step_writeByte_pc_ir s v

end Sys2Proof.Machine
end

section
/-! The decoder against the encoder (spec/30_encoding.md R60, R61, R64, R67, R68): each operation has one opcode byte,
and from there the round trip in both directions. -/

namespace Sys2Proof

open Sys2Proof.Machine

/-! ### The opcode map as rows -/

/-- The byte of an operation's row of R64. An undefined operation stands for the byte it was read from (R68). -/
def Operation.opcode (op : Byte) : Operation → Byte
  | .mvi r => mviOpcode r
  | .inr r => inrOpcode r
  | .hlt => 0x76
  | .cpi => 0xFE
  | .jmp => 0xC3
  | .jz => 0xCA
  | .jnz => 0xC2
  | .jc => 0xDA
  | .jnc => 0xD2
  | .call => 0xCD
  | .ret => 0xC9
  | .undefined => op

@[simp] theorem operationWith_mviOpcode (p : Params) (r : Reg) : operationWith p (mviOpcode r) = .mvi r := by
  cases r <;> rfl

@[simp] theorem operationWith_inrOpcode (p : Params) (r : Reg) :
    operationWith p (inrOpcode r) = if r ∈ p.inrSet then .inr r else .undefined := by
  cases r <;> rfl

/-- At the spec's parameters every register has its INR (R67). -/
theorem operation_inrOpcode (r : Reg) : operation (inrOpcode r) = .inr r := by
  cases r <;> rfl

theorem eq_opcode_of_mem_opcodeTable : ∀ row ∈ opcodeTable, row.2.opcode row.1 = row.1 := by decide

/-- The byte that selects an operation is the byte of its row. -/
theorem opcode_operationWith (p : Params) (op : Byte) : (operationWith p op).opcode op = op := by
  unfold operationWith
  cases hrow : opcodeTable.lookup op with
  | none => rfl
  | some o =>
    obtain ⟨before, after, htable, -⟩ := List.lookup_eq_some_iff.mp hrow
    have hmem : (op, o) ∈ opcodeTable := htable ▸ List.mem_append_right before List.mem_cons_self
    have hop : o.opcode op = op := eq_opcode_of_mem_opcodeTable (op, o) hmem
    cases o with
    | inr r =>
      by_cases hr : r ∈ p.inrSet
      · simpa [hr] using hop
      · simp [hr, Operation.opcode]
    | mvi | hlt | cpi | jmp | jz | jnz | jc | jnc | call | ret | undefined => exact hop

/-- The decoder answers an INR only for a register of `INR_SET` (R67). -/
theorem mem_inrSet_of_operationWith {p : Params} {op : Byte} {r : Reg} (h : operationWith p op = .inr r) :
    r ∈ p.inrSet := by
  have hop := opcode_operationWith p op
  rw [h] at hop
  rw [← hop, Operation.opcode, operationWith_inrOpcode] at h
  by_contra hr
  rw [if_neg hr] at h
  exact nomatch h

/-! ### Formats -/

theorem Format.assemble_d8_eq_ok {build : Byte → Instr} {bytes rest : List Byte} {i : Instr}
    (h : (Format.d8 build).assemble bytes = .ok (i, rest)) : ∃ b1, bytes = b1 :: rest ∧ i = build b1 := by
  cases bytes with
  | nil => exact nomatch h
  | cons b1 tail =>
    cases h
    exact ⟨b1, rfl, rfl⟩

theorem Format.assemble_a16_eq_ok {build : Addr → Instr} {bytes rest : List Byte} {i : Instr}
    (h : (Format.a16 build).assemble bytes = .ok (i, rest)) :
    ∃ b1 b2, bytes = b1 :: b2 :: rest ∧ i = build (addrOfBytes b1 b2) := by
  match bytes with
  | [] | [_] => exact nomatch h
  | b1 :: b2 :: tail =>
    cases h
    exact ⟨b1, b2, rfl, rfl⟩

theorem Format.assemble_implied_eq_ok {built i : Instr} {bytes rest : List Byte}
    (h : (Format.implied built).assemble bytes = .ok (i, rest)) : bytes = rest ∧ i = built := by
  rw [Format.assemble_implied] at h
  cases h
  exact ⟨rfl, rfl⟩

/-! ### Decoding an encoding -/

theorem decodeWith_implied {p : Params} {op : Byte} {i : Instr}
    (h : (operationWith p op).format op = .implied i) (rest : List Byte) :
    decodeWith p ([op] ++ rest) = .ok (i, rest) := by
  rw [List.singleton_append, decodeWith_cons, h, Format.assemble_implied]

theorem decodeWith_encodeD8 {p : Params} {op : Byte} {build : Byte → Instr}
    (h : (operationWith p op).format op = .d8 build) (d8 : Byte) (rest : List Byte) :
    decodeWith p (encodeD8 op d8 ++ rest) = .ok (build d8, rest) := by
  rw [encodeD8, List.cons_append, decodeWith_cons, h]
  rfl

theorem decodeWith_encodeA16 {p : Params} {op : Byte} {build : Addr → Instr}
    (h : (operationWith p op).format op = .a16 build) (a16 : Addr) (rest : List Byte) :
    decodeWith p (encodeA16 op a16 ++ rest) = .ok (build a16, rest) := by
  rw [encodeA16, List.cons_append, decodeWith_cons, h]
  simp

theorem decodeWith_inrOpcode {p : Params} {r : Reg} (hr : r ∈ p.inrSet) (rest : List Byte) :
    decodeWith p ([inrOpcode r] ++ rest) = .ok (Instr.inr r, rest) :=
  decodeWith_implied (by rw [operationWith_inrOpcode, if_pos hr, Operation.format]) rest

theorem decodeWith_undefined {p : Params} {op : Byte} (h : operationWith p op = .undefined) (rest : List Byte) :
    decodeWith p ([op] ++ rest) = .ok (.undefined op, rest) :=
  decodeWith_implied (by rw [h, Operation.format]) rest

/-- A well-formed instruction is read back from its encoding, and the bytes after it are left. -/
theorem decodeWith_encode {p : Params} {i : Instr} (hi : i.wfWith p = true) (rest : List Byte) :
    decodeWith p (encode i ++ rest) = .ok (i, rest) := by
  cases i with
  | mviA d | mviB d | mviC d | mviD d | mviE d | mviH d | mviL d | cpi d => exact decodeWith_encodeD8 rfl d rest
  | inrA => exact decodeWith_inrOpcode (r := .A) (of_decide_eq_true hi) rest
  | inrB => exact decodeWith_inrOpcode (r := .B) (of_decide_eq_true hi) rest
  | inrC => exact decodeWith_inrOpcode (r := .C) (of_decide_eq_true hi) rest
  | inrD => exact decodeWith_inrOpcode (r := .D) (of_decide_eq_true hi) rest
  | inrE => exact decodeWith_inrOpcode (r := .E) (of_decide_eq_true hi) rest
  | inrH => exact decodeWith_inrOpcode (r := .H) (of_decide_eq_true hi) rest
  | inrL => exact decodeWith_inrOpcode (r := .L) (of_decide_eq_true hi) rest
  | hlt | ret => exact decodeWith_implied rfl rest
  | jmp a | jz a | jnz a | jc a | jnc a | call a => exact decodeWith_encodeA16 rfl a rest
  | undefined op => exact decodeWith_undefined (of_decide_eq_true hi) rest

/-- Settles O34, by `decodeWith_encode`. -/
theorem decodeInvertsEncode : Obligations.DecodeInvertsEncode := by
  unfold Obligations.DecodeInvertsEncode
  exact fun p i rest hi => decodeWith_encode hi rest

/-! ### Encoding what was decoded -/

@[simp] theorem encode_mvi (r : Reg) (d8 : Byte) : encode (Instr.mvi r d8) = [mviOpcode r, d8] := by
  cases r <;> rfl

@[simp] theorem encode_inr (r : Reg) : encode (Instr.inr r) = [inrOpcode r] := by
  cases r <;> rfl

@[simp] theorem encodeA16_addrOfBytes (op b1 b2 : Byte) : encodeA16 op (addrOfBytes b1 b2) = [op, b1, b2] := by
  rw [encodeA16, lowByte_addrOfBytes, highByte_addrOfBytes]

@[simp] theorem Instr.wfWith_mvi (p : Params) (r : Reg) (d8 : Byte) : (Instr.mvi r d8).wfWith p = true := by
  cases r <;> rfl

@[simp] theorem Instr.wfWith_inr (p : Params) (r : Reg) : (Instr.inr r).wfWith p = decide (r ∈ p.inrSet) := by
  cases r <;> rfl

/-- What decodes is well-formed, and the bytes read are its encoding. -/
theorem wfWith_and_eq_encode_of_decodeWith {p : Params} {bytes rest : List Byte} {i : Instr}
    (h : decodeWith p bytes = .ok (i, rest)) : i.wfWith p = true ∧ bytes = encode i ++ rest := by
  cases bytes with
  | nil => exact nomatch h
  | cons op tail =>
    rw [decodeWith_cons] at h
    have hop := opcode_operationWith p op
    cases ho : operationWith p op with
    | mvi r =>
      rw [ho, Operation.format] at h
      obtain ⟨b1, rfl, rfl⟩ := Format.assemble_d8_eq_ok h
      rw [ho, Operation.opcode] at hop
      simp [hop]
    | inr r =>
      rw [ho, Operation.format] at h
      obtain ⟨rfl, rfl⟩ := Format.assemble_implied_eq_ok h
      have hr := mem_inrSet_of_operationWith ho
      rw [ho, Operation.opcode] at hop
      simp [hop, hr]
    | cpi =>
      rw [ho, Operation.format] at h
      obtain ⟨b1, rfl, rfl⟩ := Format.assemble_d8_eq_ok h
      rw [ho, Operation.opcode] at hop
      exact ⟨rfl, hop ▸ rfl⟩
    | hlt | ret =>
      rw [ho, Operation.format] at h
      obtain ⟨rfl, rfl⟩ := Format.assemble_implied_eq_ok h
      rw [ho, Operation.opcode] at hop
      exact ⟨rfl, hop ▸ rfl⟩
    | undefined =>
      rw [ho, Operation.format] at h
      obtain ⟨rfl, rfl⟩ := Format.assemble_implied_eq_ok h
      exact ⟨decide_eq_true ho, rfl⟩
    | jmp | jz | jnz | jc | jnc | call =>
      rw [ho, Operation.format] at h
      obtain ⟨b1, b2, rfl, rfl⟩ := Format.assemble_a16_eq_ok h
      rw [ho, Operation.opcode] at hop
      exact ⟨rfl, by rw [encode, encodeA16_addrOfBytes, hop]; rfl⟩

/-- Settles O35, by `wfWith_and_eq_encode_of_decodeWith`. -/
theorem encodeInvertsDecode : Obligations.EncodeInvertsDecode := by
  unfold Obligations.EncodeInvertsDecode
  exact fun p bytes i rest h => wfWith_and_eq_encode_of_decodeWith h

/-! ### The other statements about the decoder -/

/-- Settles O36: three bytes decode by `decodeWith_three`, an undefined opcode by `decodeWith_undefined`. -/
theorem everyByteValueDecodes : Obligations.EveryByteValueDecodes := by
  unfold Obligations.EveryByteValueDecodes
  intro p op b1 b2 rest
  refine ⟨?_, fun hop => decodeWith_undefined hop rest⟩
  obtain ⟨tail, htail⟩ := decodeWith_three p op b1 b2 rest
  exact ⟨decodeBytesWith p op b1 b2, tail, htail⟩

/-- Settles O32: the words of R64 and R65, read by the decoder. -/
theorem wordsDecodeAsWrittenOut : Obligations.WordsDecodeAsWrittenOut := by
  unfold Obligations.WordsDecodeAsWrittenOut
  exact ⟨rfl, rfl, rfl, rfl, rfl, rfl, rfl, rfl, rfl⟩

/-- A byte that is in no row of R64 selects no operation (R68). -/
theorem operation_eq_undefined {b : Byte} (hreg : ∀ r, b ≠ mviOpcode r ∧ b ≠ inrOpcode r)
    (hcontrol : b ∉ [(0x76 : Byte), 0xFE, 0xC3, 0xCA, 0xC2, 0xDA, 0xD2, 0xCD, 0xC9]) :
    operation b = .undefined := by
  have hb : (operation b).opcode b = b := opcode_operationWith Params.spec b
  cases ho : operation b with
  | undefined => rfl
  | mvi r =>
    rw [ho] at hb
    exact absurd hb.symm (hreg r).1
  | inr r =>
    rw [ho] at hb
    exact absurd hb.symm (hreg r).2
  | hlt | cpi | jmp | jz | jnz | jc | jnc | call | ret =>
    rw [ho, Operation.opcode] at hb
    simp [← hb] at hcontrol

/-- Settles O33: each row by evaluation, every other byte by `operation_eq_undefined`. -/
theorem opcodeMapIsTheTable : Obligations.OpcodeMapIsTheTable := by
  unfold Obligations.OpcodeMapIsTheTable
  exact ⟨fun r => ⟨operationWith_mviOpcode Params.spec r, operation_inrOpcode r⟩,
    rfl, rfl, rfl, rfl, rfl, rfl, rfl, rfl, rfl, fun b => operation_eq_undefined⟩

end Sys2Proof

namespace Sys2Proof.Machine

open Sys2Proof

/-- The three bytes at `pc` decode to the instruction that the step fetches (R83). -/
theorem State.fetchInstr_of_decode {s : State} {i : Instr} {rest : List Byte}
    (h : decode [s.readByte s.pc, s.readByte (s.pc + 1), s.readByte (s.pc + 2)] = .ok (i, rest)) :
    s.fetchInstr = i := by
  obtain ⟨tail, htail⟩ :=
    decodeWith_three Params.spec (s.readByte s.pc) (s.readByte (s.pc + 1)) (s.readByte (s.pc + 2)) []
  rw [decode, htail] at h
  cases h
  rw [State.fetchInstr, State.fetchInstrWith_eq_decodeBytesWith, Addr.add_one_add_one]

/-- A step on bytes that decode to `i` executes `i` after the fetch. -/
theorem step_of_decode {s : State} {i : Instr} {rest : List Byte}
    (h : decode [s.readByte s.pc, s.readByte (s.pc + 1), s.readByte (s.pc + 2)] = .ok (i, rest)) :
    step s = exec i { s with ir := s.readByte s.pc, pc := s.pc + 1 } := by
  rw [step_eq_exec, State.fetchInstr_of_decode h, State.fetchOpcode]

/-- Settles O11: what decodes is well-formed, and `step_of_decode`. -/
theorem stepRunsTheDecodedInstruction : Obligations.StepRunsTheDecodedInstruction := by
  unfold Obligations.StepRunsTheDecodedInstruction
  exact fun s i rest h => ⟨(wfWith_and_eq_encode_of_decodeWith h).1, step_of_decode h⟩

end Sys2Proof.Machine
end

section
/-! The step as one next state (spec/10_state.md R22 to R30): each field of it by the operation of the opcode byte, and
what follows for every step. -/

namespace Sys2Proof.Machine

open Sys2Proof

/-! ### The fields of the next state, by the operation -/

/-- The registers after a step whose first operand byte is `b1` (R22). -/
def regsAfter (g : Regs) (b1 : Byte) : Operation → Regs
  | .mvi r => g.write r b1
  | .inr r => g.write r (inc8 (g.read r))
  | .hlt | .cpi | .jmp | .jz | .jnz | .jc | .jnc | .call | .ret | .undefined => g

/-- The flags after a step whose first operand byte is `b1` (R24). -/
def flagsAfter (g : Regs) (f : Flags) (b1 : Byte) : Operation → Flags
  | .inr r => updateFlags ((inc8 (g.read r)).toNat : Int)
  | .cpi => updateFlags (subUnmasked (g.read .A) b1)
  | .mvi _ | .hlt | .jmp | .jz | .jnz | .jc | .jnc | .call | .ret | .undefined => f

/-- `pc` after a step with this address operand and this value on top of the stack (R23). -/
def pcAfter (pc : Addr) (f : Flags) (operand top : Addr) : Operation → Addr
  | .mvi _ | .cpi => pc + 2
  | .inr _ | .hlt | .undefined => pc + 1
  | .jmp | .call => operand
  | .jz => if f.Z then operand else pc + 3
  | .jnz => if f.Z then pc + 3 else operand
  | .jc => if f.CY then operand else pc + 3
  | .jnc => if f.CY then pc + 3 else operand
  | .ret => top

/-- Memory after a step: only CALL's push writes (R50). -/
def memAfter (s : State) : Operation → Memory
  | .call => (s.push16 (s.pc + 1)).mem
  | .mvi _ | .inr _ | .hlt | .cpi | .jmp | .jz | .jnz | .jc | .jnc | .ret | .undefined => s.mem

/-- The state that a step answers. -/
def nextState (s : State) : State where
  regs := regsAfter s.regs (s.readByte (s.pc + 1)) s.nextOperation
  pc :=
    pcAfter s.pc s.flags (addrOfBytes (s.readByte (s.pc + 1)) (s.readByte (s.pc + 2)))
      (addrOfBytes (s.readByte s.sp) (s.readByte (s.sp + 1))) s.nextOperation
  sp := spAfter s.sp s.nextOperation
  ir := s.readByte s.pc
  flags := flagsAfter s.regs s.flags (s.readByte (s.pc + 1)) s.nextOperation
  mem := memAfter s s.nextOperation
  runState := outcomeOf s.nextOperation

/-- The address operand in the two bytes after the opcode (R45, R61). -/
theorem State.read16_pc_add_one (s : State) :
    s.read16 (s.pc + 1) = addrOfBytes (s.readByte (s.pc + 1)) (s.readByte (s.pc + 2)) := by
  rw [State.read16, Addr.add_one_add_one]

/-- Every step completes, in the state `nextState` names. -/
theorem step_eq_next (s : State) : step s = .next (nextState s) := by
  rw [step_by_operation, nextState]
  simp only [Addr.add_one_add_one, Addr.add_one_add_two, State.read16_pc_add_one]
  cases s.nextOperation with
  | mvi | inr | hlt | cpi | jmp | jz | jc | call | ret | undefined => rfl
  | jnz => cases hZ : s.flags.Z <;> simp only [hZ, pcAfter] <;> rfl
  | jnc => cases hCY : s.flags.CY <;> simp only [hCY, pcAfter] <;> rfl

end Sys2Proof.Machine
end

section
/-! What holds of every step: the tables of R22 to R24 and R30, the writes of R50, what the step does not read, and the
invariants of R35, R36 and R95. -/

namespace Sys2Proof.Machine

open Sys2Proof

/-! ### Field by field -/

/-- Settles O14, by `step_ir`. -/
theorem irHoldsTheFetchedOpcode : Obligations.IrHoldsTheFetchedOpcode := by
  unfold Obligations.IrHoldsTheFetchedOpcode
  exact step_ir

/-- Settles O15: `pcAfter` is the table of R23. -/
theorem nextPcTable : Obligations.NextPcTable := by
  unfold Obligations.NextPcTable
  intro s
  refine ⟨nextState s, step_eq_next s, ?_⟩
  rw [nextState]
  cases s.nextOperation <;> rfl

theorem regsAfter_read_of_ne {o : Operation} {q : Reg} (hmvi : o ≠ .mvi q) (hinr : o ≠ .inr q) (g : Regs)
    (b1 : Byte) : (regsAfter g b1 o).read q = g.read q := by
  cases o with
  | mvi r => exact Regs.read_write_of_ne (fun h => hmvi (congrArg Operation.mvi h.symm)) g b1
  | inr r => exact Regs.read_write_of_ne (fun h => hinr (congrArg Operation.inr h.symm)) g _
  | hlt | cpi | jmp | jz | jnz | jc | jnc | call | ret | undefined => rfl

theorem nextState_readReg (s : State) (q : Reg) :
    (nextState s).readReg q = (regsAfter s.regs (s.readByte (s.pc + 1)) s.nextOperation).read q := rfl

theorem nextState_readReg_of_mvi {s : State} {q : Reg} (h : s.nextOperation = .mvi q) :
    (nextState s).readReg q = s.readByte (s.pc + 1) := by
  rw [nextState_readReg, h, regsAfter, Regs.read_write_self]

theorem nextState_readReg_of_inr {s : State} {q : Reg} (h : s.nextOperation = .inr q) :
    (nextState s).readReg q = inc8 (s.readReg q) := by
  rw [nextState_readReg, h, regsAfter, Regs.read_write_self, State.readReg]

/-- Settles O16: a register's own MVI and INR write it, and `regsAfter_read_of_ne` covers the rest. -/
theorem registersChangeOnlyByMviAndInr : Obligations.RegistersChangeOnlyByMviAndInr := by
  unfold Obligations.RegistersChangeOnlyByMviAndInr
  refine fun s => ⟨nextState s, step_eq_next s, fun q =>
    ⟨nextState_readReg_of_mvi, fun hinr => ?_, fun hmvi hinr => ?_⟩⟩
  · rw [nextState_readReg_of_inr hinr, inc8_toNat]
  · exact regsAfter_read_of_ne hmvi hinr ..

theorem flagsAfter_of_ne {o : Operation} (hinr : ∀ r, o ≠ .inr r) (hcpi : o ≠ .cpi) (g : Regs) (f : Flags)
    (b1 : Byte) : flagsAfter g f b1 o = f := by
  cases o with
  | inr r => exact absurd rfl (hinr r)
  | cpi => exact absurd rfl hcpi
  | mvi | hlt | jmp | jz | jnz | jc | jnc | call | ret | undefined => rfl

theorem nextState_flags (s : State) :
    (nextState s).flags = flagsAfter s.regs s.flags (s.readByte (s.pc + 1)) s.nextOperation := rfl

/-- Settles O17: `flagsAfter` by the operation, with the register that INR has written. -/
theorem flagsChangeOnlyByInrAndCpi : Obligations.FlagsChangeOnlyByInrAndCpi := by
  unfold Obligations.FlagsChangeOnlyByInrAndCpi
  refine fun s => ⟨nextState s, step_eq_next s, fun r hinr => ?_, fun hcpi => ?_, fun hinr hcpi => ?_⟩
  · rw [nextState_readReg_of_inr hinr, nextState_flags, hinr, flagsAfter, State.readReg]
  · rw [nextState_flags, hcpi, flagsAfter, subUnmasked, State.readReg]
  · exact flagsAfter_of_ne hinr hcpi ..

theorem memAfter_of_ne_call {o : Operation} (h : o ≠ .call) (s : State) : memAfter s o = s.mem := by
  cases o with
  | call => exact absurd rfl h
  | mvi | inr | hlt | cpi | jmp | jz | jnz | jc | jnc | ret | undefined => rfl

/-- On a CALL memory is that of the push (R46). -/
theorem nextState_readByte_of_call {s : State} (h : s.nextOperation = .call) (a : Addr) :
    (nextState s).readByte a = (s.push16 (s.pc + 1)).readByte a :=
  State.readByte_congr (by rw [nextState, h, memAfter]) a

theorem nextState_readByte_of_ne_call {s : State} (h : s.nextOperation ≠ .call) (a : Addr) :
    (nextState s).readByte a = s.readByte a :=
  State.readByte_congr (memAfter_of_ne_call h s) a

/-- Settles O19: on a CALL the laws of the push, and otherwise the same memory. -/
theorem memoryChangesOnlyByCall : Obligations.MemoryChangesOnlyByCall := by
  unfold Obligations.MemoryChangesOnlyByCall
  refine fun s => ⟨nextState s, step_eq_next s, fun hcall => ⟨?_, ?_, fun a h₂ h₁ => ?_⟩,
    nextState_readByte_of_ne_call⟩
  · rw [nextState_readByte_of_call hcall, State.readByte_push16_low]
  · rw [nextState_readByte_of_call hcall, State.readByte_push16_high]
  · rw [nextState_readByte_of_call hcall, State.readByte_push16_of_ne s (s.pc + 1) h₂ h₁]

/-! ### What a step does not read -/

/-- The next state depends neither on the old `ir` nor on the old outcome (R30, R34). -/
theorem nextState_congr_ir_runState (s : State) (b : Byte) (o : RunState) :
    nextState { s with ir := b, runState := o } = nextState s := rfl

theorem step_congr_ir_runState (s : State) (b : Byte) (o : RunState) :
    step { s with ir := b, runState := o } = step s := by
  rw [step_eq_next, step_eq_next, nextState_congr_ir_runState]

/-- Settles O20, by `step_congr_ir_runState`. -/
theorem stepReadsNeitherIrNorLastOutcome : Obligations.StepReadsNeitherIrNorLastOutcome := by
  unfold Obligations.StepReadsNeitherIrNorLastOutcome
  exact step_congr_ir_runState

/-- Outside memory the next state depends on memory only through the bytes of R50. -/
theorem nextState_congr_mem {s : State} {m : Memory} (hop : Memory.read m s.pc.toNat = s.readByte s.pc)
    (hb1 : Memory.read m (s.pc + 1).toNat = s.readByte (s.pc + 1))
    (hb2 : Memory.read m (s.pc + 2).toNat = s.readByte (s.pc + 2))
    (hlo : Memory.read m s.sp.toNat = s.readByte s.sp)
    (hhi : Memory.read m (s.sp + 1).toNat = s.readByte (s.sp + 1)) :
    { nextState { s with mem := m } with mem := (nextState s).mem } = nextState s := by
  have hread (a : Addr) : State.readByte { s with mem := m } a = Memory.read m a.toNat := rfl
  have hnext : State.nextOperation { s with mem := m } = s.nextOperation := by
    rw [State.nextOperation, hread, hop, State.nextOperation]
  simp only [nextState, hnext, hread, hop, hb1, hb2, hlo, hhi]

/-- Settles O21, by `nextState_congr_mem`. -/
theorem stepDependsOnlyOnTheBytesItReads : Obligations.StepDependsOnlyOnTheBytesItReads := by
  unfold Obligations.StepDependsOnlyOnTheBytesItReads
  exact fun s m hop hb1 hb2 hlo hhi =>
    ⟨nextState s, nextState { s with mem := m }, step_eq_next s, step_eq_next _,
      nextState_congr_mem hop hb1 hb2 hlo hhi⟩

/-! ### HLT has no latch -/

theorem State.nextOperation_of_byte {s : State} {b : Byte} (h : s.readByte s.pc = b) :
    s.nextOperation = operation b := by
  rw [State.nextOperation, h]

/-- A step on the byte 0x76 changes `ir` and `pc` only, and answers Halted (R120). -/
theorem step_of_byte_hlt {s : State} (h : s.readByte s.pc = 0x76) :
    step s = .next { s with ir := 0x76, pc := s.pc + 1, runState := .Halted } := by
  rw [step_of_hlt (State.nextOperation_of_byte h), State.fetchOpcode, h]

/-- Settles O22: after `step_of_byte_hlt` only `pc` counts, since `step_congr_ir_runState`. -/
theorem stepAfterHltRunsTheNextByte : Obligations.StepAfterHltRunsTheNextByte := by
  unfold Obligations.StepAfterHltRunsTheNextByte
  exact fun s hs => ⟨_, step_of_byte_hlt hs, rfl, step_congr_ir_runState { s with pc := s.pc + 1 } 0x76 .Halted⟩

/-! ### The invariant -/

theorem wf_memAfter {s : State} (h : Memory.wf s.mem = true) (o : Operation) : Memory.wf (memAfter s o) = true := by
  cases o with
  | call => exact State.wf_push16 h _
  | mvi | inr | hlt | cpi | jmp | jz | jnz | jc | jnc | ret | undefined => exact h

/-- No operation changes the parity of `sp` (R36). -/
theorem spAfter_toNat_mod_two (sp : Addr) (o : Operation) : (spAfter sp o).toNat % 2 = sp.toNat % 2 := by
  cases o with
  | call => exact Addr.sub_two_toNat_mod_two sp
  | ret => exact Addr.add_two_toNat_mod_two sp
  | mvi | inr | hlt | cpi | jmp | jz | jnz | jc | jnc | undefined => rfl

theorem nextState_inv {s : State} (h : s.Inv) : (nextState s).Inv := by
  obtain ⟨hmem, hsp⟩ := h
  exact ⟨wf_memAfter hmem _, (spAfter_toNat_mod_two _ _).trans hsp⟩

/-- Settles O28, by `nextState_inv`. -/
theorem stepKeepsTheInvariant : Obligations.StepKeepsTheInvariant := by
  unfold Obligations.StepKeepsTheInvariant
  exact fun s hs => ⟨nextState s, step_eq_next s, nextState_inv hs⟩

/-! ### The carry -/

theorem updateFlags_CY_of_le {v : Int} (h : v ≤ 255) : (updateFlags v).CY = false := by
  rw [updateFlags_CY, decide_eq_false (by omega)]

/-- Neither INR nor CPI passes `UpdateFlags` a value above 255, so CY stays clear (R95). -/
theorem flagsAfter_CY {f : Flags} (h : f.CY = false) (g : Regs) (b1 : Byte) (o : Operation) :
    (flagsAfter g f b1 o).CY = false := by
  cases o with
  | inr r => exact updateFlags_CY_of_le (by omega)
  | cpi => exact updateFlags_CY_of_le (subUnmasked_le _ _)
  | mvi | hlt | jmp | jz | jnz | jc | jnc | call | ret | undefined => exact h

/-- Settles O30: `flagsAfter_CY`, and JC and JNC in `pcAfter` with CY clear. -/
theorem carryStaysClear : Obligations.CarryStaysClear := by
  unfold Obligations.CarryStaysClear
  intro s (hcy : s.flags.CY = false)
  refine ⟨nextState s, step_eq_next s, flagsAfter_CY hcy .., fun hjc => ?_, fun hjnc => ?_⟩
  · simp [nextState, hjc, pcAfter, hcy]
  · simp [nextState, hjnc, pcAfter, hcy]

end Sys2Proof.Machine
end

section
/-! Memory as data and the host's commands (spec/70_reset_and_hazards.md R170 to R179): canonical memories that read
alike, the bytes that `load` places and the step that runs them, and the driver's loop. -/

namespace Sys2Proof.Machine

open Sys2Proof

/-! ### Canonical memories -/

/-- A canonical list holds nothing below its first address. -/
theorem Memory.head_le_of_read_ne {k a : Nat} {v : Byte} {m : List Host.Cell} {lo : Nat}
    (hm : Memory.wfFrom lo ((k, v) :: m) = true) (h : Memory.read ((k, v) :: m) a ≠ Memory.unlisted) : k ≤ a := by
  obtain ⟨-, hk, hv, hm⟩ := (Memory.wfFrom_cons ..).mp hm
  by_contra hlt
  exact h (Memory.read_of_lt ((Memory.wfFrom_cons ..).mpr ⟨le_rfl, hk, hv, hm⟩) (not_le.mp hlt))

/-- Canonical lists that read alike are equal, from any first address on. -/
theorem Memory.eq_of_read_eq {lo : Nat} {m n : List Host.Cell} (hm : Memory.wfFrom lo m = true)
    (hn : Memory.wfFrom lo n = true) (h : ∀ a < 65536, Memory.read m a = Memory.read n a) : m = n := by
  induction m generalizing lo n with
  | nil =>
    cases n with
    | nil => rfl
    | cons d n =>
      obtain ⟨l, w⟩ := d
      obtain ⟨-, hl, hw, -⟩ := (Memory.wfFrom_cons ..).mp hn
      have hread : Memory.unlisted = w := by simpa [Memory.read_cons] using h l hl
      exact absurd hread.symm hw
  | cons c m ih =>
    obtain ⟨k, v⟩ := c
    obtain ⟨-, hk, hv, hm'⟩ := (Memory.wfFrom_cons ..).mp hm
    cases n with
    | nil =>
      have hread : v = Memory.unlisted := by simpa [Memory.read_cons] using h k hk
      exact absurd hread hv
    | cons d n =>
      obtain ⟨l, w⟩ := d
      obtain ⟨-, hl, hw, hn'⟩ := (Memory.wfFrom_cons ..).mp hn
      have hvk : Memory.read ((k, v) :: m) k = v := by simp [Memory.read_cons]
      have hwl : Memory.read ((l, w) :: n) l = w := by simp [Memory.read_cons]
      have hlk : l ≤ k := Memory.head_le_of_read_ne hn (by rwa [← h k hk, hvk])
      have hkl : k ≤ l := Memory.head_le_of_read_ne hm (by rwa [h l hl, hwl])
      obtain rfl : k = l := le_antisymm hkl hlk
      obtain rfl : v = w := by rw [← hvk, h k hk, hwl]
      have hrest : ∀ a < 65536, Memory.read m a = Memory.read n a := fun a ha => by
        by_cases hka : k = a
        · rw [Memory.read_of_lt hm' (by omega), Memory.read_of_lt hn' (by omega)]
        · simpa [Memory.read_cons, hka] using h a ha
      rw [ih hm' hn' hrest]

/-- Settles O31, by `Memory.eq_of_read_eq` from address 0 on. -/
theorem memoriesThatReadAlikeAreEqual : Obligations.MemoriesThatReadAlikeAreEqual := by
  unfold Obligations.MemoriesThatReadAlikeAreEqual
  intro m n hm hn h
  refine Memory.eq_of_read_eq hm hn fun a ha => ?_
  have haddr : (BitVec.ofNat 16 a).toNat = a := Nat.mod_eq_of_lt ha
  rw [← haddr]
  exact h (BitVec.ofNat 16 a)

/-! ### The bytes that `load` places -/

theorem Addr.add_one_add_ofNat (a : Addr) (i : Nat) :
    a + 1 + BitVec.ofNat 16 i = a + BitVec.ofNat 16 (i + 1) := by
  rw [BitVec.add_assoc, BitVec.add_comm 1, BitVec.ofNat_add]
  rfl

/-- A run of bytes leaves every address that it does not reach alone (R172). -/
theorem State.readByte_writeBytes_of_ne {bs : List Byte} {a x : Addr}
    (h : ∀ i < bs.length, x ≠ a + BitVec.ofNat 16 i) (s : State) :
    (State.writeBytes a bs s).readByte x = s.readByte x := by
  induction bs generalizing a s with
  | nil => rfl
  | cons b bs ih =>
    have hxa : x ≠ a := by simpa using h 0 (Nat.succ_pos bs.length)
    have htail : ∀ i < bs.length, x ≠ a + 1 + BitVec.ofNat 16 i := fun i hi => by
      rw [Addr.add_one_add_ofNat]
      exact h (i + 1) (Nat.succ_lt_succ hi)
    rw [State.writeBytes_cons, ih htail, State.readByte_writeByte_of_ne hxa]

/-- The last of the bytes written to an address is the one read there (R172, D13). -/
theorem State.readByte_writeBytes {bs : List Byte} {i : Nat} (hi : i < bs.length) (hlast : bs.length ≤ i + 65536)
    (a : Addr) (s : State) : (State.writeBytes a bs s).readByte (a + BitVec.ofNat 16 i) = bs[i] := by
  induction bs generalizing i a s with
  | nil => exact absurd hi (Nat.not_lt_zero i)
  | cons b bs ih =>
    rw [State.writeBytes_cons]
    rw [List.length_cons] at hi hlast
    cases i with
    | zero =>
      have hlater : ∀ j < bs.length, a ≠ a + 1 + BitVec.ofNat 16 j := fun j hj => by
        rw [Addr.add_one_add_ofNat]
        intro heq
        have hzero : BitVec.ofNat 16 (j + 1) = 0 := by simpa using heq.symm
        have hmod : (j + 1) % 65536 = 0 := congrArg BitVec.toNat hzero
        omega
      rw [BitVec.add_zero, State.readByte_writeBytes_of_ne hlater, State.readByte_writeByte_self,
        List.getElem_cons_zero]
    | succ j =>
      rw [← Addr.add_one_add_ofNat, ih (by omega) (by omega), List.getElem_cons_succ]

@[simp] theorem Command.run_load (s : State) (bytes : List Byte) :
    Command.run (.load bytes) s = .next (s.placeBytes bytes, .done) := rfl

/-- Settles O38: the two laws of `State.writeBytes`, from `pc` on. -/
theorem loadWritesFromThePc : Obligations.LoadWritesFromThePc := by
  unfold Obligations.LoadWritesFromThePc
  exact fun s bytes => ⟨s.placeBytes bytes, Command.run_load s bytes,
    fun i hi hlast => State.readByte_writeBytes hi hlast s.pc s, fun a ha => State.readByte_writeBytes_of_ne ha s⟩

/-! ### The step that runs a loaded instruction -/

/-- The encoder writes the format's number of bytes, 1, 2 or 3 (R60). -/
theorem encodeLength_statement (i : Instr) : Laws.EncodeLength.Statement i := by
  cases i with
  | mviA | mviB | mviC | mviD | mviE | mviH | mviL | cpi => exact Laws.EncodeLength.of_two rfl rfl
  | jmp | jz | jnz | jc | jnc | call => exact Laws.EncodeLength.of_three rfl rfl
  | inrA | inrB | inrC | inrD | inrE | inrH | inrL | hlt | ret | undefined => exact Laws.EncodeLength.of_one rfl rfl

theorem length_encode_le_three (i : Instr) : (encode i).length ≤ 3 := by
  obtain ⟨hlength, -, hthree⟩ := encodeLength_statement i
  rwa [hlength]

/-- The bytes of memory from `pc` on, `n` of them, wrapping. -/
def State.bytesAtPc (s : State) (n : Nat) : List Byte :=
  (List.range n).map fun i => s.readByte (s.pc + BitVec.ofNat 16 i)

theorem State.bytesAtPc_three (s : State) :
    s.bytesAtPc 3 = [s.readByte s.pc, s.readByte (s.pc + 1), s.readByte (s.pc + 2)] := by
  simp [State.bytesAtPc, List.range_succ]

theorem State.take_bytesAtPc {n m : Nat} (h : n ≤ m) (s : State) : (s.bytesAtPc m).take n = s.bytesAtPc n := by
  rw [State.bytesAtPc, ← List.map_take, List.take_range, Nat.min_eq_left h, State.bytesAtPc]

@[simp] theorem State.placeBytes_pc (s : State) (bs : List Byte) : (s.placeBytes bs).pc = s.pc := by
  rw [State.placeBytes_eq]

/-- Up to 65536 loaded bytes stand in memory from `pc` on. -/
theorem State.bytesAtPc_placeBytes {bs : List Byte} (hbs : bs.length ≤ 65536) {n : Nat} (hn : n ≤ bs.length)
    (s : State) : (s.placeBytes bs).bytesAtPc n = bs.take n := by
  refine List.ext_getElem (by simp [State.bytesAtPc, hn]) fun i _ hi => ?_
  have hi : i < bs.length := hi.trans_le (List.length_take_le' n bs)
  simp only [State.bytesAtPc, List.getElem_map, List.getElem_range, List.getElem_take, State.placeBytes_pc]
  exact State.readByte_writeBytes hi (by omega) s.pc s

/-- After a load the three bytes at `pc` begin with the loaded instruction. -/
theorem State.bytesAtPc_three_of_load {i : Instr} {rest : List Byte} (h : (encode i ++ rest).length ≤ 65536)
    (s : State) : ∃ tail, (s.placeBytes (encode i ++ rest)).bytesAtPc 3 = encode i ++ tail := by
  have hle : (encode i).length ≤ 3 := length_encode_le_three i
  have htake : ((s.placeBytes (encode i ++ rest)).bytesAtPc 3).take (encode i).length = encode i := by
    rw [State.take_bytesAtPc hle, State.bytesAtPc_placeBytes h (by simp), List.take_left]
  refine ⟨((s.placeBytes (encode i ++ rest)).bytesAtPc 3).drop (encode i).length, ?_⟩
  conv_lhs => rw [← List.take_append_drop (encode i).length (State.bytesAtPc _ 3), htake]

/-- Settles O43: the loaded bytes decode to the instruction by `decodeWith_encode`, and `step_of_decode` runs it. -/
theorem loadedInstructionRuns : Obligations.LoadedInstructionRuns := by
  unfold Obligations.LoadedInstructionRuns
  intro s i rest hi hlength
  refine ⟨s.placeBytes (encode i ++ rest), Command.run_load .., ?_⟩
  obtain ⟨tail, htail⟩ := State.bytesAtPc_three_of_load hlength s
  have hdecode := decodeWith_encode hi tail
  rw [← htail, State.bytesAtPc_three] at hdecode
  have hstep := step_of_decode hdecode
  rwa [State.placeBytes_pc] at hstep

/-! ### The commands and the invariant -/

theorem State.inv_reset : State.reset.Inv := ⟨Memory.wf_reset, rfl⟩

/-- Settles O27: the values of R37. -/
theorem resetMeetsTheInvariant : Obligations.ResetMeetsTheInvariant := by
  unfold Obligations.ResetMeetsTheInvariant
  exact ⟨State.inv_reset, rfl⟩

@[simp] theorem Command.run_step (s : State) :
    Command.run .step s = .next (nextState s, .runState (nextState s).runState) := by
  rw [Command.run, step_eq_next]

theorem State.inv_placeBytes {s : State} (h : s.Inv) (bs : List Byte) : (s.placeBytes bs).Inv := by
  obtain ⟨hmem, hsp⟩ := h
  exact ⟨State.wf_writeBytes hmem bs s.pc, by rwa [State.placeBytes_sp]⟩

theorem State.inv_writeByte {s : State} (h : s.Inv) (a : Addr) (v : Byte) : (s.writeByte a v).Inv := by
  obtain ⟨hmem, hsp⟩ := h
  exact ⟨State.wf_writeByte hmem a v, hsp⟩

/-- Settles O29, command by command; the step's part is `nextState_inv`. -/
theorem commandsKeepTheInvariant : Obligations.CommandsKeepTheInvariant := by
  unfold Obligations.CommandsKeepTheInvariant
  intro c s hs
  cases c with
  | new | reset => exact ⟨_, _, rfl, State.inv_reset⟩
  | load bytes => exact ⟨_, _, Command.run_load s bytes, State.inv_placeBytes hs bytes⟩
  | step => exact ⟨_, _, Command.run_step s, nextState_inv hs⟩
  | snapshot => exact ⟨_, _, rfl, hs⟩
  | peekMemory a => exact ⟨_, _, Command.run_peekMemory s a, hs⟩
  | pokeMemory a v => exact ⟨_, _, Command.run_pokeMemory s a v, State.inv_writeByte hs a v⟩

/-! ### What the commands answer -/

theorem State.reset_readReg (r : Reg) : State.reset.readReg r = 0x00 := by
  cases r <;> rfl

/-- Settles O37: both commands answer `State.reset`. -/
theorem resetCommandGivesTheResetValues : Obligations.ResetCommandGivesTheResetValues := by
  unfold Obligations.ResetCommandGivesTheResetValues
  exact fun s => ⟨State.reset, rfl, rfl, State.reset_readReg, rfl, rfl, rfl, rfl, rfl, rfl, rfl, fun _ => rfl, rfl⟩

/-- Settles O41: the view is `State.view`. -/
theorem snapshotCopiesTheState : Obligations.SnapshotCopiesTheState := by
  unfold Obligations.SnapshotCopiesTheState
  exact fun s => ⟨s.view, rfl, rfl, rfl, rfl, rfl, rfl, rfl, rfl, rfl, rfl, rfl, rfl, rfl, rfl, rfl⟩

theorem RunState.eq_halted_or_eq_continue (r : RunState) : r = .Halted ∨ r = .Continue := by
  cases r with
  | Halted => exact .inl rfl
  | Continue => exact .inr rfl

/-- Settles O42, by `Command.run_step`. -/
theorem stepCommandReturnsTheOutcome : Obligations.StepCommandReturnsTheOutcome := by
  unfold Obligations.StepCommandReturnsTheOutcome
  exact fun s => ⟨nextState s, step_eq_next s, Command.run_step s, RunState.eq_halted_or_eq_continue _⟩

/-! ### The driver's loop -/

/-- A bound above 0: one step, and the rest of the bound if it did not answer Halted (R122). -/
theorem runUntilHalted_succ (n : Nat) (s : State) :
    runUntilHalted (n + 1) s =
      if (nextState s).runState = .Halted then .next (nextState s) else runUntilHalted n (nextState s) := by
  rw [runUntilHalted, step_eq_next]

/-- Settles O44, by induction on the bound: the first step ends the run, or the rest of the bound says how it ends. -/
theorem runEndsAtTheFirstHalted : Obligations.RunEndsAtTheFirstHalted := by
  unfold Obligations.RunEndsAtTheFirstHalted
  intro n s hn
  induction n generalizing s with
  | zero => exact absurd hn (lt_irrefl 0)
  | succ n ih =>
    by_cases hhalt : (nextState s).runState = .Halted
    · have hrun (k : Nat) : runUntilHalted (k + 1) s = .next (nextState s) := by
        rw [runUntilHalted_succ, if_pos hhalt]
      refine ⟨nextState s, hrun n, fun _ k hk => ?_, fun hcont => ?_⟩
      · obtain ⟨k, rfl⟩ := Nat.exists_eq_add_of_lt hk
        exact hrun _
      · exact nomatch hhalt.symm.trans hcont
    · have hrun (k : Nat) : runUntilHalted (k + 1) s = runUntilHalted k (nextState s) := by
        rw [runUntilHalted_succ, if_neg hhalt]
      rcases Nat.eq_zero_or_pos n with rfl | hpos
      · exact ⟨nextState s, hrun 0, fun h => absurd h hhalt, fun _ => hrun 1⟩
      · obtain ⟨t, ht, hhalted, hcont⟩ := ih (nextState s) hpos
        refine ⟨t, (hrun n).trans ht, fun h k hk => ?_, fun h => (hrun (n + 1)).trans (hcont h)⟩
        obtain ⟨k, rfl⟩ := Nat.exists_eq_add_of_lt hk
        exact (hrun _).trans (hhalted h _ (by omega))

end Sys2Proof.Machine
end

section
/-! The instructions one by one, executed after the fetch (spec/41_mvi.md to spec/46_call_return.md), with `UpdateFlags`
on any integer (spec/40_cycle_and_flags.md R92, R93). -/

namespace Sys2Proof.Machine

open Sys2Proof

/-! ### The masked value -/

theorem masked_toNat (v : Int) : ((masked v).toNat : Int) = v % 256 := by
  rw [masked, BitVec.toNat_ofInt]
  omega

theorem masked_eq_zero_iff (v : Int) : masked v = 0 ↔ v % 256 = 0 := by
  have h := masked_toNat v
  have hzero : (0 : Byte).toNat = 0 := rfl
  rw [← BitVec.toNat_inj, hzero]
  omega

/-- Bit 7 says that the byte is at least 128 (R26). -/
theorem getLsbD_seven_iff (x : Byte) : x.getLsbD 7 = true ↔ 128 ≤ x.toNat := by
  have h : x.getLsbD 7 = decide (2 ^ 7 ≤ x.toNat) :=
    (BitVec.msb_eq_getLsbD_last x).symm.trans (BitVec.msb_eq_decide x)
  rw [h]
  exact decide_eq_true_iff

theorem updateFlags_Z_iff (v : Int) : (updateFlags v).Z = true ↔ masked v = 0 := by
  rw [updateFlags_Z, decide_eq_true_iff]

theorem updateFlags_S_iff (v : Int) : (updateFlags v).S = true ↔ 128 ≤ (masked v).toNat := by
  rw [updateFlags_S, getLsbD_seven_iff]

theorem updateFlags_P_iff (v : Int) : (updateFlags v).P = true ↔ popcount (masked v) % 2 = 0 := by
  rw [updateFlags_P, decide_eq_true_iff]

theorem updateFlags_CY_iff (v : Int) : (updateFlags v).CY = true ↔ v > 255 := by
  rw [updateFlags_CY, decide_eq_true_iff]

/-- Settles O26: each flag by its `iff`, with `masked_toNat` for the masked byte. -/
theorem updateFlagsReadsTheMaskedByte : Obligations.UpdateFlagsReadsTheMaskedByte := by
  unfold Obligations.UpdateFlagsReadsTheMaskedByte
  intro v
  have hmasked := masked_toNat v
  refine ⟨hmasked, (updateFlags_Z_iff v).trans (masked_eq_zero_iff v), (updateFlags_S_iff v).trans ?_,
    updateFlags_P_iff v, updateFlags_CY_iff v⟩
  omega

/-! ### MVI and INR -/

theorem SameMemory.of_mem_eq {s t : State} (h : t.mem = s.mem) : SameMemory s t := State.readByte_congr h

theorem SameRegsBut.of_regs_eq_write {s t : State} {r : Reg} {v : Byte} (h : t.regs = s.regs.write r v) :
    SameRegsBut r s t := fun q hq => by
  rw [State.readReg, h, Regs.read_write_of_ne hq, State.readReg]

/-- Settles O1: the seven MVI are `moveImmediate`. -/
theorem mviWritesOnlyItsRegister : Obligations.MviWritesOnlyItsRegister := by
  unfold Obligations.MviWritesOnlyItsRegister
  intro r d8 s
  exact ⟨_, (exec_mvi r d8 s).trans (moveImmediate_eq r d8 s), Regs.read_write_self s.regs r d8,
    SameRegsBut.of_regs_eq_write rfl, BitVec.toNat_add s.pc 1, rfl, rfl, rfl, SameMemory.of_mem_eq rfl, rfl⟩

/-- Settles O2: the seven INR are `incrementRegister`, and the new byte is its own masked value. -/
theorem inrIncrementsAndSetsFlags : Obligations.InrIncrementsAndSetsFlags := by
  unfold Obligations.InrIncrementsAndSetsFlags
  intro r s
  refine ⟨_, (exec_inr r s).trans (incrementRegister_eq r s), ?_, SameRegsBut.of_regs_eq_write rfl, ?_, ?_, ?_,
    updateFlags_CY_of_le (by omega), rfl, rfl, rfl, SameMemory.of_mem_eq rfl, rfl⟩
  · simp only [State.readReg, Regs.read_write_self, inc8_toNat]
  · simp only [updateFlags_Z_iff, masked_byte, State.readReg, Regs.read_write_self]
  · simp only [updateFlags_S_iff, masked_byte, State.readReg, Regs.read_write_self]
  · simp only [updateFlags_P_iff, masked_byte, State.readReg, Regs.read_write_self]

/-! ### HLT and CPI -/

/-- Settles O3: `execHlt` returns Halted, and `step_of_byte_hlt` for the step. -/
theorem hltReturnsHaltedAndChangesNothing : Obligations.HltReturnsHaltedAndChangesNothing := by
  unfold Obligations.HltReturnsHaltedAndChangesNothing
  exact ⟨fun _ => rfl, fun _ => step_of_byte_hlt⟩

/-- The masked difference of two bytes is their difference as bytes (R93). -/
theorem masked_subUnmasked (a b : Byte) : masked (subUnmasked a b) = a - b := by
  apply BitVec.eq_of_toNat_eq
  have h := masked_toNat (subUnmasked a b)
  rw [subUnmasked] at h ⊢
  rw [BitVec.toNat_sub]
  omega

theorem masked_subUnmasked_eq_zero_iff (a b : Byte) : masked (subUnmasked a b) = 0 ↔ a = b := by
  rw [masked_subUnmasked]
  bv_omega

theorem masked_subUnmasked_toNat (a b : Byte) :
    (masked (subUnmasked a b)).toNat = (a.toNat + 256 - b.toNat) % 256 := by
  rw [masked_subUnmasked, BitVec.toNat_sub]
  omega

theorem exec_cpi (d8 : Byte) (s : State) : exec (.cpi d8) s = compareImmediateWith Params.spec d8 s := rfl

/-- Settles O4: CPI's flags are those of the unmasked difference, whose masked byte is A - d8. -/
theorem cpiSetsFlagsFromTheDifference : Obligations.CpiSetsFlagsFromTheDifference := by
  unfold Obligations.CpiSetsFlagsFromTheDifference
  intro d8 s
  refine ⟨_, (exec_cpi d8 s).trans (compareImmediateWith_eq Params.spec d8 s), ?_, ?_, ?_,
    updateFlags_CY_of_le (subUnmasked_le _ _), rfl, BitVec.toNat_add s.pc 1, rfl, rfl, SameMemory.of_mem_eq rfl, rfl⟩
  · rw [compareFlagsWith_spec, updateFlags_Z_iff, masked_subUnmasked_eq_zero_iff]
  · rw [compareFlagsWith_spec, updateFlags_S_iff, masked_subUnmasked_toNat]
  · rw [compareFlagsWith_spec, updateFlags_P_iff, masked_subUnmasked]

/-! ### Jumps -/

/-- Settles O5: `execJmp` sets `pc`. -/
theorem jmpGoesToItsTarget : Obligations.JmpGoesToItsTarget := by
  unfold Obligations.JmpGoesToItsTarget
  exact fun _ _ => rfl

theorem exec_jz (a16 : Addr) (s : State) : exec (.jz a16) s = (s.jumpIf s.flags.Z a16).returnContinue := rfl

theorem exec_jnz (a16 : Addr) (s : State) : exec (.jnz a16) s = (s.jumpIf (!s.flags.Z) a16).returnContinue := rfl

theorem exec_jc (a16 : Addr) (s : State) : exec (.jc a16) s = (s.jumpIf s.flags.CY a16).returnContinue := rfl

theorem exec_jnc (a16 : Addr) (s : State) : exec (.jnc a16) s = (s.jumpIf (!s.flags.CY) a16).returnContinue := rfl

/-- Settles O6: each is `State.jumpIf` on its condition. -/
theorem conditionalJumpsTestZAndCarryOnly : Obligations.ConditionalJumpsTestZAndCarryOnly := by
  unfold Obligations.ConditionalJumpsTestZAndCarryOnly
  refine fun a16 s => ⟨?_, ?_, ?_, ?_⟩
  · rw [exec_jz, jumpIf_returnContinue_eq]
  · simp only [exec_jnz, jumpIf_returnContinue_eq, Bool.not_eq_true']
  · rw [exec_jc, jumpIf_returnContinue_eq]
  · simp only [exec_jnc, jumpIf_returnContinue_eq, Bool.not_eq_true']

/-! ### CALL and RET -/

theorem exec_call (a16 : Addr) (s : State) :
    exec (.call a16) s = .next { s.push16 s.pc with pc := a16, runState := .Continue } := execCall_eq a16 s

theorem exec_ret (s : State) :
    exec .ret s = .next { s with pc := s.read16 s.sp, sp := s.sp + 2, runState := .Continue } := execRet_eq s

/-- Settles O7: the laws of the push. -/
theorem callPushesTheAddressOfItsOperand : Obligations.CallPushesTheAddressOfItsOperand := by
  unfold Obligations.CallPushesTheAddressOfItsOperand
  intro a16 s
  have hmem (a : Addr) :
      State.readByte { s.push16 s.pc with pc := a16, runState := .Continue } a = (s.push16 s.pc).readByte a := rfl
  refine ⟨_, exec_call a16 s, rfl, spAfter_call_toNat s.sp, ?_, ?_, fun a h₂ h₁ => ?_, rfl, rfl, rfl, rfl⟩
  · rw [hmem, State.readByte_push16_low, lowByte_toNat]
  · rw [hmem, State.readByte_push16_high, highByte_toNat]
  · rw [hmem, State.readByte_push16_of_ne s s.pc h₂ h₁]

/-- Settles O8: `exec_ret`, the popped value low byte first. -/
theorem retPopsTheProgramCounter : Obligations.RetPopsTheProgramCounter := by
  unfold Obligations.RetPopsTheProgramCounter
  exact fun s => ⟨_, exec_ret s, addrOfBytes_toNat (s.readByte s.sp) (s.readByte (s.sp + 1)), spAfter_ret_toNat s.sp,
    rfl, rfl, rfl, SameMemory.of_mem_eq rfl, rfl⟩

/-! ### Calls in a row -/

/-- The address that CALL pushed is what a pop reads (R142). -/
theorem State.read16_push16 (s : State) (v : Addr) : (s.push16 v).read16 (s.push16 v).sp = v := by
  have hhigh : s.sp - 2 + 1 = s.sp - 1 := by bv_omega
  rw [State.push16_sp, State.read16, hhigh, State.readByte_push16_low, State.readByte_push16_high,
    addrOfBytes_lowByte_highByte]

theorem step_of_byte_call {s : State} (h : s.readByte s.pc = 0xCD) :
    step s = .next { s.fetchOpcode.push16 (s.pc + 1) with
      pc := s.read16 (s.pc + 1), runState := .Continue } := by
  rw [step_by_operation, State.nextOperation_of_byte h]
  rfl

theorem step_of_byte_ret {s : State} (h : s.readByte s.pc = 0xC9) :
    step s = .next { s.fetchOpcode with
      pc := s.read16 s.sp, sp := s.sp + 2, runState := .Continue } := by
  rw [step_by_operation, State.nextOperation_of_byte h]
  rfl

/-- Settles O48: the pop reads what the push wrote, and `sp` comes back. -/
theorem callThenRetReturnsToTheOperand : Obligations.CallThenRetReturnsToTheOperand := by
  unfold Obligations.CallThenRetReturnsToTheOperand
  intro s hcall
  refine ⟨_, step_of_byte_call hcall, State.read16_pc_add_one s, fun hret =>
    ⟨_, step_of_byte_ret hret, ?_, ?_, rfl, rfl⟩⟩
  · exact State.read16_push16 s.fetchOpcode (s.pc + 1)
  · exact BitVec.sub_add_cancel s.sp 2

/-- Each CALL takes `sp` down by 2 (R143). -/
theorem repeatCall_sp (n : Nat) (a16 : Addr) (s : State) :
    ∃ t, repeatCall n a16 s = .next t ∧ (t.sp.toNat + 2 * n) % 65536 = s.sp.toNat := by
  induction n generalizing s with
  | zero => exact ⟨s, rfl, Nat.mod_eq_of_lt s.sp.isLt⟩
  | succ n ih =>
    obtain ⟨t, ht, hsp⟩ := ih { s.push16 s.pc with pc := a16, runState := .Continue }
    have hpush : (t.sp.toNat + 2 * n) % 65536 = (s.sp.toNat + 65534) % 65536 :=
      hsp.trans (spAfter_call_toNat s.sp)
    refine ⟨t, ?_, by omega⟩
    rw [repeatCall, exec_call]
    exact ht

/-- Settles O49: `repeatCall_sp`, and 2 * 32768 = 65536. -/
theorem stackWrapsAfter32768Calls : Obligations.StackWrapsAfter32768Calls := by
  unfold Obligations.StackWrapsAfter32768Calls
  refine ⟨repeatCall_sp, fun a16 s => ?_⟩
  obtain ⟨t, ht, hsp⟩ := repeatCall_sp 32768 a16 s
  exact ⟨t, ht, BitVec.eq_of_toNat_eq (by omega)⟩

end Sys2Proof.Machine
end

section
/-! The machine under other parameter values (spec/00_scope.md R8, spec/30_encoding.md R67, spec/44_compare.md R126). -/

namespace Sys2Proof.Machine

open Sys2Proof

/-- At the spec's values the parametric execution is `exec`, CPI included. -/
theorem execWith_spec (i : Instr) (s : State) : execWith Params.spec i s = exec i s := by
  by_cases hcpi : ∃ d8, i = .cpi d8
  · obtain ⟨d8, rfl⟩ := hcpi
    rfl
  · exact execWith_eq_exec (fun d8 hi => hcpi ⟨d8, hi⟩) Params.spec s

/-- Settles O45, by `execWith_spec`. -/
theorem stepIsTheMachineAtSpecParams : Obligations.StepIsTheMachineAtSpecParams := by
  unfold Obligations.StepIsTheMachineAtSpecParams
  exact fun s => execWith_spec s.fetchInstr s.fetchOpcode

theorem compareFlagsWith_of_cpiNegSetsCY {p : Params} (h : p.cpiNegSetsCY = true) (v : Int) :
    compareFlagsWith p v = { updateFlags v with CY := decide (v < 0) } := by
  rw [compareFlagsWith, if_pos h]

theorem subUnmasked_neg_iff (a b : Byte) : subUnmasked a b < 0 ↔ a.toNat < b.toNat := by
  rw [subUnmasked]
  omega

/-- Settles O46: the two flag writes differ in CY only. -/
theorem cpiParameterChangesOnlyCarry : Obligations.CpiParameterChangesOnlyCarry := by
  unfold Obligations.CpiParameterChangesOnlyCarry
  intro p d8 s hp
  refine ⟨_, _, compareImmediateWith_eq p d8 s,
    (exec_cpi d8 s).trans (compareImmediateWith_eq Params.spec d8 s), ?_, ?_,
    updateFlags_CY_of_le (subUnmasked_le _ _)⟩
  · rw [SameButCarry, compareFlagsWith_of_cpiNegSetsCY hp, compareFlagsWith_spec]
  · rw [compareFlagsWith_of_cpiNegSetsCY hp, decide_eq_true_iff, subUnmasked_neg_iff]

/-- The parametric fetch on an INR opcode (R67). -/
theorem State.fetchInstrWith_of_inrOpcode {s : State} {r : Reg} (h : s.readByte s.pc = inrOpcode r) (p : Params) :
    s.fetchInstrWith p = if r ∈ p.inrSet then Instr.inr r else .undefined (inrOpcode r) := by
  rw [State.fetchInstrWith_eq, h, operationWith_inrOpcode]
  by_cases hr : r ∈ p.inrSet
  · rw [if_pos hr, if_pos hr, Operation.format]
  · rw [if_neg hr, if_neg hr, Operation.format]

theorem execWith_inr (p : Params) (r : Reg) (s : State) : execWith p (Instr.inr r) s = exec (Instr.inr r) s := by
  cases r <;> rfl

/-- Settles O47: outside `INR_SET` the fetched instruction is an undefined opcode, inside it is INR. -/
theorem inrOutsideTheSetIsANoOp : Obligations.InrOutsideTheSetIsANoOp := by
  unfold Obligations.InrOutsideTheSetIsANoOp
  intro p r s hop
  have hfetch := State.fetchInstrWith_of_inrOpcode hop
  refine ⟨fun hr => ?_, fun hr => ?_⟩
  · have hundef : s.fetchInstrWith p = .undefined (inrOpcode r) := by rw [hfetch, if_neg hr]
    rw [stepWith, hundef, State.fetchOpcode, hop]
    rfl
  · have hinr : s.fetchInstrWith p = Instr.inr r := by rw [hfetch, if_pos hr]
    have hall : r ∈ Params.spec.inrSet := by cases r <;> decide
    rw [stepWith, hinr, execWith_inr, step_eq_exec, State.fetchInstr, hfetch, if_pos hall]

end Sys2Proof.Machine
end
